-- ==== Sys2Proof/Word.lean ====
section
/-! DEFINITION. The two word types of the engine: a byte of a memory or stream, and a 32-bit interface register (00_scope.md R8, R10). -/

namespace Sys2Proof

/-- One byte: the unit of every engine memory access (20_memory.md R55). -/
abbrev Byte := BitVec 8

/-- One interface register or offset, 32 bits (00_scope.md R8, 92_eei_decisions.md D22). -/
abbrev Word := BitVec 32

end Sys2Proof
end

