-- ==== Sys2Proof/Syntax.lean ====
section
/-! DEFINITION. The instructions: one constructor for each row of spec/opcode_table.json (30_encoding.md R81). -/

namespace Sys2Proof

/-- The four items of the token stream and the four commands of CTRL.OP. -/
inductive Instr where
  /-- CMD: a command byte, the flags of the next up to 8 tokens (30_encoding.md R72). -/
  | cmd (c : Byte)
  /-- LIT: a literal byte (30_encoding.md R73). -/
  | lit (d : Byte)
  /-- END: the end-of-stream sentinel, with the position field it carries and ignores (30_encoding.md R76). -/
  | sentinel (position : BitVec 12)
  /-- MATCH: a back-reference (30_encoding.md R74, R75). -/
  | backref (position : BitVec 12) (rawLength : BitVec 4)
  /-- CTRL.OP = 0b00: no operation (10_state.md R32). -/
  | nop
  /-- CTRL.OP = 0b01: INSPECT (40_header.md R90). -/
  | inspect
  /-- CTRL.OP = 0b10: DECODE (41_dispatch.md R100). -/
  | decode
  /-- CTRL.OP = 0b11: reserved, behaves as 0b00 (30_encoding.md R84). -/
  | rsvd
  deriving DecidableEq, Repr

end Sys2Proof
end

