-- ==== Sys2Proof/WellFormed.lean ====
section
/-! DEFINITION. Which instruction terms an encoding can spell. The field widths are in the types; the one check left is that a MATCH has a non-zero raw length. -/

namespace Sys2Proof

/-- A MATCH has `rawLength ≠ 0`: with `rawLength = 0` the two bytes are the sentinel and never a MATCH
(30_encoding.md R79, opcode_table.json's constraint). Every other operand value has an encoding (30_encoding.md R82). -/
def Instr.wellFormed : Instr → Bool
  | .cmd _ => true
  | .lit _ => true
  | .sentinel _ => true
  | .backref _ rawLength => rawLength != 0#4
  | .nop => true
  | .inspect => true
  | .decode => true
  | .rsvd => true

end Sys2Proof
end

