-- ==== Sys2Proof/Decode.lean ====
section
/-! DEFINITION. The decoder and the encoder of the token stream, the CTRL word and the header, with the token words of the opcode table and the assembler notation of 30_encoding.md. -/

namespace Sys2Proof

/-! ## Format constants (00_scope.md R7) -/

/-- `MAGIC` = 1397971532 = 0x53535A4C (00_scope.md R7, 90_conflicts.md C1). -/
def magic : Word := 1397971532#32

/-- `HDR_LEN` = 8 bytes (00_scope.md R7). -/
def headerLength : Nat := 8

/-- `TOKEN_BASE` = 8: the container offset where the token stream starts (00_scope.md R7). -/
def tokenBase : Nat := 8

/-! ## Fields -/

/-- Four bytes, the lowest offset first, as a little-endian 32-bit value (20_memory.md R51). -/
def le32 (b0 b1 b2 b3 : Byte) : Word := b3 ++ b2 ++ b1 ++ b0

/-- Byte `n` of a word, byte 0 the least significant. -/
def byteOf (w : Word) (n : Nat) : Byte := w.extractLsb' (8 * n) 8

/-- `position[11:4]` is `b0` and `position[3:0]` is `b1[7:4]` (30_encoding.md R74, 43_match.md R121). -/
def positionOf (b0 b1 : Byte) : BitVec 12 := b0 ++ b1.extractLsb' 4 4

/-- `rawLength` is `b1[3:0]` (30_encoding.md R74). -/
def rawLengthOf (b1 : Byte) : BitVec 4 := b1.extractLsb' 0 4

/-! ## Decoding -/

/-- What selects the format of the next item of the token stream (30_encoding.md R70, R80): `BIT_IDX = 0`, or else the
flag bit of the token. -/
inductive Select where
  | command
  | token (flag : Bool)
  deriving DecidableEq, Repr

/-- Why bytes decode to no item. The token stream has no illegal encoding (30_encoding.md R82): the only way is that
bytes are missing, which the decode step reports as `TruncatedInput` (41_dispatch.md R103). -/
inductive Reject where
  | missingBytes
  deriving DecidableEq, Repr

/-- How many bytes an item of this format has (30_encoding.md R70). -/
def Select.length : Select → Nat
  | .command => 1
  | .token false => 1
  | .token true => 2

/-- The item at the front of a byte list, and the bytes after it. Both bytes of a flag-1 token are there before the
sentinel test, which comes before MATCH (30_encoding.md R79, R80). -/
def decodeStream : Select → List Byte → Except Reject (Instr × List Byte)
  | .command, c :: rest => .ok (.cmd c, rest)
  | .token false, d :: rest => .ok (.lit d, rest)
  | .token true, b0 :: b1 :: rest =>
    if rawLengthOf b1 = 0#4 then .ok (.sentinel (positionOf b0 b1), rest)
    else .ok (.backref (positionOf b0 b1) (rawLengthOf b1), rest)
  | _, _ => .error .missingBytes

/-- The command of a word written to CTRL: `OP` is bits [1:0], bits [31:2] are ignored (30_encoding.md R77). -/
def decodeCtrl (w : Word) : Instr :=
  if w.extractLsb' 0 2 = 0b00#2 then .nop
  else if w.extractLsb' 0 2 = 0b01#2 then .inspect
  else if w.extractLsb' 0 2 = 0b10#2 then .decode
  else .rsvd

/-- An instruction as the engine is given it: bytes of the token stream under a selector, or a word written to CTRL. -/
inductive Code where
  | stream (sel : Select) (bytes : List Byte)
  | ctrl (w : Word)
  deriving DecidableEq, Repr

/-- The decoder: total, and rejecting by name. -/
def decode : Code → Except Reject (Instr × List Byte)
  | .stream sel bytes => decodeStream sel bytes
  | .ctrl w => .ok (decodeCtrl w, [])

/-- The 8 header bytes at the front of a byte list: `magic`, then `uncompressedSize` (30_encoding.md R71). -/
def decodeHeader : List Byte → Except Reject (Word × Word)
  | m0 :: m1 :: m2 :: m3 :: u0 :: u1 :: u2 :: u3 :: _ => .ok (le32 m0 m1 m2 m3, le32 u0 u1 u2 u3)
  | _ => .error .missingBytes

/-! ## Encoding -/

/-- The two bytes of a flag-1 token (30_encoding.md R74). -/
def tokenBytes (position : BitVec 12) (rawLength : BitVec 4) : List Byte :=
  [position.extractLsb' 4 8, position.extractLsb' 0 4 ++ rawLength]

/-- The encoder, from the formats of 30_encoding.md R72 to R77; reserved CTRL bits are written 0. -/
def encode : Instr → Code
  | .cmd c => .stream .command [c]
  | .lit d => .stream (.token false) [d]
  | .sentinel position => .stream (.token true) (tokenBytes position 0#4)
  | .backref position rawLength => .stream (.token true) (tokenBytes position rawLength)
  | .nop => .ctrl 0#32
  | .inspect => .ctrl 1#32
  | .decode => .ctrl 2#32
  | .rsvd => .ctrl 3#32

/-- The header of a container (30_encoding.md R71). -/
def encodeHeader (m size : Word) : List Byte :=
  [byteOf m 0, byteOf m 1, byteOf m 2, byteOf m 3, byteOf size 0, byteOf size 1, byteOf size 2, byteOf size 3]

/-! ## The words of spec/opcode_table.json -/

/-- The bits of a table word laid out as the engine is given them. A row of 8 bits is a command byte, one of 9 bits
(in whole bytes, 16) is `f : d` with `f = 0`, one of 17 bits (in whole bytes, 24) is `f : b0 : b1` with `f = 1`
(30_encoding.md R78), and one of 32 bits is a CTRL word (30_encoding.md R77). -/
def tableCode (nbits w : Nat) : Option Code :=
  if nbits = 32 then some (.ctrl (BitVec.ofNat 32 w))
  else if nbits = 8 then some (.stream .command [BitVec.ofNat 8 w])
  else if 9 ≤ nbits ∧ nbits ≤ 16 then
    if w / 2 ^ 8 = 0 then some (.stream (.token false) [BitVec.ofNat 8 w]) else none
  else if 17 ≤ nbits ∧ nbits ≤ 24 then
    if w / 2 ^ 16 = 1 then some (.stream (.token true) [BitVec.ofNat 8 (w / 2 ^ 8), BitVec.ofNat 8 w]) else none
  else none

/-- The instruction that the decoder reads from a table word (30_encoding.md R78). -/
def decodeTableWord (nbits w : Nat) : Option Instr :=
  match tableCode nbits w with
  | none => none
  | some code =>
    match decode code with
    | .ok (i, _) => some i
    | .error _ => none

/-- The table word of an instruction, with its width in whole bytes (30_encoding.md R78). -/
def encodeTableWord : Instr → Nat × Nat
  | .cmd c => (8, c.toNat)
  | .lit d => (16, d.toNat)
  | .sentinel position => (24, 2 ^ 16 + position.toNat * 2 ^ 4)
  | .backref position rawLength => (24, 2 ^ 16 + position.toNat * 2 ^ 4 + rawLength.toNat)
  | .nop => (32, 0)
  | .inspect => (32, 1)
  | .decode => (32, 2)
  | .rsvd => (32, 3)

/-! ## The assembler notation of 30_encoding.md R85 and R86 -/

/-- One item of the notation. -/
inductive AsmItem where
  /-- `HDR magic=<m>, size=<n>`; `HDR size=<n>` is this with the magic of R7. -/
  | hdr (m size : Word)
  /-- `CMD 0b<8 bits>`. -/
  | cmd (c : Byte)
  /-- `LIT 0x<hh>`. -/
  | lit (d : Byte)
  /-- `MATCH p=<position>, n=<length>`. -/
  | mtch (p n : Nat)
  /-- `END p=<position>`; `END` alone is `END p=0`. -/
  | fin (p : Nat)
  /-- `REP n=<length>`. -/
  | rep (n : Nat)
  /-- `COPY d=<distance>, n=<length>`. -/
  | copy (d n : Nat)
  deriving DecidableEq, Repr

/-- `MATCH p=<position>, n=<length>` as an instruction; none is the assembly error of R85. -/
def assembleMatch (p n : Nat) : Option Instr :=
  if p ≤ 4095 ∧ 2 ≤ n ∧ n ≤ 16 then some (.backref (BitVec.ofNat 12 p) (BitVec.ofNat 4 (n - 1))) else none

/-- The token an item stands for: `REP n` is `MATCH p=0, n` and `COPY d, n` is `MATCH p=d-1, n` (R86). HDR and CMD lines
are no tokens, and a value outside its range has no encoding (R85). -/
def AsmItem.token : AsmItem → Option Instr
  | .hdr _ _ => none
  | .cmd _ => none
  | .lit d => some (.lit d)
  | .mtch p n => assembleMatch p n
  | .fin p => if p ≤ 4095 then some (.sentinel (BitVec.ofNat 12 p)) else none
  | .rep n => assembleMatch 0 n
  | .copy d n => if 1 ≤ d ∧ d ≤ 4096 then assembleMatch (d - 1) n else none

/-- The bytes of an instruction that stands in the token stream; a CTRL word has none there. -/
def Instr.streamBytes (i : Instr) : List Byte :=
  match encode i with
  | .stream _ bytes => bytes
  | .ctrl _ => []

/-- The bytes of one item written out by itself (R85). -/
def assembleItem : AsmItem → Option (List Byte)
  | .hdr m size => some (encodeHeader m size)
  | .cmd c => some [c]
  | item => item.token.map Instr.streamBytes

/-- The flag a token has in its command byte: 1 exactly for MATCH and END (R72, R86). -/
def Instr.flag : Instr → Bool
  | .sentinel _ => true
  | .backref _ _ => true
  | .cmd _ => false
  | .lit _ => false
  | .nop => false
  | .inspect => false
  | .decode => false
  | .rsvd => false

/-- The command byte of a run of up to 8 tokens: token `i`'s flag in bit `i`, bits beyond the run 0 (R86). -/
def commandByte : List Instr → Byte
  | [] => 0#8
  | t :: rest => (commandByte rest <<< 1) ||| (if t.flag then 1#8 else 0#8)

/-- One run of a token list as bytes: its command byte, then its tokens. -/
def assembleRun (run : List Instr) : List Byte := commandByte run :: run.flatMap Instr.streamBytes

/-- `AUTO` grouping (R86): the tokens in runs of 8 in order, each run after its command byte. `run` holds the tokens of
the run being filled. -/
def assembleAuto (run : List Instr) : List Instr → List Byte
  | [] => if run = [] then [] else assembleRun run
  | t :: rest =>
    if run.length = 7 then assembleRun (run ++ [t]) ++ assembleAuto [] rest
    else assembleAuto (run ++ [t]) rest

/-- A whole container: the header, then the AUTO-grouped tokens (R85, R86). -/
def assembleContainer (size : Word) (tokens : List Instr) : List Byte :=
  encodeHeader magic size ++ assembleAuto [] tokens

end Sys2Proof
end

