-- ==== Sys2Proof/Config.lean ====
section
/-! DEFINITION. What one instance of the engine has fixed (its placement, 00_scope.md R8, 10_state.md R21) and the free values the spec leaves open (92_eei_decisions.md D15, 20_memory.md R62). -/

namespace Sys2Proof

/-- A range of storage in the system address map: its first address and its length in bytes. -/
structure Region where
  base : Nat
  len  : Nat
  deriving DecidableEq, Repr

/-- The OPEN parameters of 00_scope.md R8 (93_implementation_defined.md I20): where the register block and the two
buffers sit in the system address map, how many bytes the output memory has, and the storage that other engines'
memories occupy (60_exceptions.md R163). No rule of the engine depends on the three bases except the disjointness
of 70_reset_and_hazards.md R177. -/
structure Placement where
  regBase : Nat
  inBase  : Nat
  outBase : Nat
  outCap  : Nat
  others  : List Region
  deriving DecidableEq, Repr

/-- The placement that State.reset has. DESIGN CHOICE (log entry 2): the spec leaves every one of these values open.
The output memory has a byte at every 32-bit offset, the three parts are disjoint, and there is no other engine. -/
def Config.resetPlacement : Placement where
  regBase := 0x200000000
  inBase  := 0
  outBase := 0x100000000
  outCap  := 0x100000000
  others  := []

/-- FREE VALUE (log entry 3): what the input memory holds at an offset that nothing has written since power-on.
10_state.md R43: "unspecified (not reset)"; 92_eei_decisions.md D15: "a model treats them as any value (a draw)". -/
opaque Config.initialIn : Nat → Byte

/-- FREE VALUE (log entry 3): what the `n`-th output memory the host has provided holds at an offset that nothing
has written (10_state.md R43, 92_eei_decisions.md D15, 93_implementation_defined.md I18). -/
opaque Config.initialOut : Nat → Nat → Byte

/-- FREE VALUE (log entry 4): what the host's `n`-th read of the output memory returns while BUSY, or before the host has read STATUS with
`STATE ≠ BUSY`. 20_memory.md R62: "the host may not rely on the contents of the output memory". -/
opaque Config.unseenOutRead : Nat → Byte

end Sys2Proof
end

