-- ==== Sys2Proof/Machine/State.lean ====
section
/-! DEFINITION. The state of one engine and of the host beside it, as plain data: the eight registers of 10_state.md R22, the two memories of 20_memory.md R50, the placement, and what the host does next. -/

namespace Sys2Proof.Machine

/-- The two commands the engine executes (10_state.md R20). -/
inductive Command where
  | inspect
  | decode
  deriving DecidableEq, Repr

/-- The register `STATE` (10_state.md R23). Its two bits are `Status.bits` in Machine/Flags.lean. BUSY says which command is executing, which
the spec gives the machine without a register for it: the engine goes on with that command's steps "while STATE = BUSY"
(41_dispatch.md R101; log entry 5). -/
inductive Status where
  /-- IDLE = 0: no command has run since reset. -/
  | idle
  /-- BUSY = 1: this command is executing. -/
  | busy (command : Command)
  /-- DONE = 2: the last command completed successfully. -/
  | done
  /-- ERROR = 3: the last command ended with the error kind in CODE. -/
  | error
  deriving DecidableEq, Repr

/-- The error kinds of 60_exceptions.md R145. -/
inductive ErrorKind where
  | notCompressed
  | truncatedHeader
  | truncatedInput
  | invalidBackReference
  | outputOverflow
  | sizeMismatch
  deriving DecidableEq, Repr

/-- What the host can do in one turn (10_state.md R20, R31; 20_memory.md R50; 70_reset_and_hazards.md R170, R174). -/
inductive HostAct where
  /-- Read `bits` bits at this offset of the register block. -/
  | regRead (bits : Nat) (offset : Word)
  /-- Write `bits` bits at this offset of the register block. -/
  | regWrite (bits : Nat) (offset : Word) (value : Word)
  /-- Read a byte of the input memory. -/
  | inRead (offset : Word)
  /-- Write a byte of the input memory. -/
  | inWrite (offset : Word) (value : Byte)
  /-- Read a byte of the output memory. -/
  | outRead (offset : Word)
  /-- Write a byte of the output memory. -/
  | outWrite (offset : Word) (value : Byte)
  /-- Provide an output memory of `cap` bytes at `base`, with contents nobody has written (R174 step 3). -/
  | provideOut (base cap : Nat)
  /-- Assert the reset input (R170). -/
  | reset
  deriving DecidableEq, Repr

/-- Which of the two agents of 10_state.md R20 moves next. -/
inductive Turn where
  | engine
  | host (act : HostAct)
  deriving DecidableEq, Repr

/-- A memory: the bytes something has written, as (offset, byte) pairs with strictly rising offsets. An offset that is not
listed holds no written byte; what a read of it returns is a free value (Machine/Ops.lean, log entry 3). -/
abbrev Memory := List Host.Cell

/-- Why the machine stops with a fault: an access to an address that does not exist. -/
inductive Fault where
  /-- Raised by an engine read or write of the output memory at an offset `≥ OUT_CAP`, where 20_memory.md R50 gives that memory no
  byte. It never happens from a state that meets `StateInv` (20_memory.md R57). Safe: the machine stops where no hardware behaviour is given. -/
  | engineOutputOffset (offset : Nat)
  /-- Raised by a host read or write of the output memory at an offset `≥ OUT_CAP` (20_memory.md R50). Safe, for the same reason. -/
  | hostOutputOffset (offset : Nat)
  deriving DecidableEq, Repr

/-- Why a step is given no meaning. Each is a refusal the spec itself asks a model for, so each is safe. -/
inductive Refusal where
  /-- Raised by an arm of exec whose instruction has no meaning yet. No arm is such an arm. Safe. -/
  | notModelled (mnemonic : String)
  /-- Raised by a DECODE launched with `OUT_CAP < SIZE` (70_reset_and_hazards.md R175). Safe. -/
  | outputTooSmall
  /-- Raised by an INSPECT or a DECODE launched while two of the memories involved share storage (70_reset_and_hazards.md R177). Safe. -/
  | memoriesOverlap
  /-- Raised by a host write of the input or output memory, or by the provision of another output memory, while `STATE = BUSY`: the memories
  are then the engine's (70_reset_and_hazards.md R176, 60_exceptions.md R159, 93_implementation_defined.md I15). Safe. -/
  | hostMemoryWhileOwned
  /-- Raised by a host register access that is not 32 bits wide or not at a multiple of 4 (10_state.md R40). Safe. -/
  | registerAccessForm
  deriving DecidableEq, Repr

/-- Everything the spec gives the machine, with the host's side of it. -/
structure State where
  /-- `STATE` (10_state.md R23). -/
  status   : Status
  /-- `CODE` (10_state.md R30). -/
  code     : BitVec 4
  /-- `IN_LEN` (10_state.md R29). -/
  inLen    : Word
  /-- `SIZE` (10_state.md R28). -/
  size     : Word
  /-- `OUT_COUNT` (10_state.md R25). -/
  outCount : Word
  /-- `IN_PTR` (10_state.md R24). -/
  inPtr    : Word
  /-- `CMD`, the command byte as fetched, unshifted (10_state.md R26, R27). -/
  cmd      : Byte
  /-- `BIT_IDX` (10_state.md R26). -/
  bitIdx   : BitVec 3
  /-- The input memory (20_memory.md R50). -/
  inMem    : Memory
  /-- The output memory (20_memory.md R50). -/
  outMem   : Memory
  /-- The parameters of 00_scope.md R8. -/
  place    : Placement
  /-- The completion mark: true from a CTRL command write until the host has read STATUS with `STATE ≠ BUSY`; the host may not rely on reading
  the output until then (70_reset_and_hazards.md R176, 20_memory.md R62, log entry 9). -/
  unseen   : Bool
  /-- The turns to come, first one first; an empty list leaves every turn to the engine (log entry 6). -/
  turns    : List Turn
  /-- What the host's last read returned (10_state.md R31, 20_memory.md R50). -/
  readData : Word
  /-- How many output memories the host has provided: selects the free value of an unwritten byte (log entry 3). -/
  outGen   : Nat
  /-- How many host reads of the output memory have been answered by a free value (log entry 4). -/
  draws    : Nat
  deriving DecidableEq, Repr

/-- The machine right after reset: the registers as 10_state.md R43 gives them, memories that nothing has written, and a host
that has done nothing. The values R43 does not give are those of log entries 2, 6 and 7. -/
def State.reset : State where
  status   := .idle
  code     := 0#4
  inLen    := 0#32
  size     := 0#32
  outCount := 0#32
  inPtr    := 0#32
  cmd      := 0#8
  bitIdx   := 0#3
  inMem    := []
  outMem   := []
  place    := Config.resetPlacement
  unseen   := false
  turns    := []
  readData := 0#32
  outGen   := 0
  draws    := 0

end Sys2Proof.Machine
end

