-- ==== Sys2Proof/Machine/Flags.lean ====
section
/-! DEFINITION. The flag bits of the command byte (10_state.md R26, 41_dispatch.md R104), and the STATUS and DEBUG words that pack STATE, CODE, CMD and BIT_IDX (10_state.md R33, R38). -/

namespace Sys2Proof.Machine

/-- `CMD[BIT_IDX]`: false selects a literal, true a match or sentinel (41_dispatch.md R104). -/
def flagOf (c : Byte) (idx : BitVec 3) : Bool := c.getLsbD idx.toNat

/-- `(BIT_IDX + 1) mod 8` (41_dispatch.md R101). -/
def nextBitIdx (idx : BitVec 3) : BitVec 3 := idx + 1#3

/-- The two bits of `STATE` (10_state.md R23). -/
def Status.bits : Status → BitVec 2
  | .idle => 0#2
  | .busy _ => 1#2
  | .done => 2#2
  | .error => 3#2

/-- `STATE = BUSY`. -/
def Status.isBusy : Status → Bool
  | .idle => false
  | .busy _ => true
  | .done => false
  | .error => false

/-- `STATE = BUSY`. -/
def State.busy (s : State) : Bool := s.status.isBusy

/-- The `CODE` value of an error kind (60_exceptions.md R146). -/
def ErrorKind.code : ErrorKind → BitVec 4
  | .notCompressed => 1#4
  | .truncatedHeader => 2#4
  | .truncatedInput => 3#4
  | .invalidBackReference => 4#4
  | .outputOverflow => 5#4
  | .sizeMismatch => 6#4

/-- STATUS: bits [1:0] `STATE`, [3:2] zero, [7:4] `CODE`, [31:8] zero (10_state.md R33). -/
def State.statusWord (s : State) : Word := 0#24 ++ s.code ++ 0#2 ++ s.status.bits

/-- DEBUG: bits [7:0] `CMD`, [10:8] `BIT_IDX`, [31:11] zero (10_state.md R38). -/
def State.debugWord (s : State) : Word := 0#21 ++ s.bitIdx ++ s.cmd

end Sys2Proof.Machine
end

