-- ==== Sys2Proof/Machine/Operands.lean ====
section
/-! DEFINITION. What the fields of a match mean (30_encoding.md R75): its length, its distance, and where it reads and writes. -/

namespace Sys2Proof.Machine

/-- `length = rawLength + 1` (30_encoding.md R75). -/
def matchLength (rawLength : BitVec 4) : Nat := rawLength.toNat + 1

/-- `distance = position + 1` (30_encoding.md R75). -/
def matchDistance (position : BitVec 12) : Nat := position.toNat + 1

/-- The output offset where the next byte is written (10_state.md R25). -/
def State.writeCursor (s : State) : Nat := s.outCount.toNat

/-- `src = OUT_COUNT - position - 1` (43_match.md R120), where the distance does not pass the bytes written. -/
def State.matchSource (s : State) (position : BitVec 12) : Nat := s.writeCursor - matchDistance position

end Sys2Proof.Machine
end

