-- ==== Sys2Proof/Machine/Ops.lean ====
section
/-! DEFINITION. The named operations over memories and registers: byte accesses, the bounds checks, the commit of a step, the end of a command by error or by success, the launch checks and the reset input. -/

namespace Sys2Proof.Machine

/-! ## Memories -/

/-- The written byte at an offset, if there is one. -/
def Memory.get : Memory → Nat → Option Byte
  | [], _ => none
  | (b, v) :: m, a => if a = b then some v else Memory.get m a

/-- Write a byte, keeping the offsets strictly rising. -/
def Memory.set : Memory → Nat → Byte → Memory
  | [], a, v => [(a, v)]
  | (b, w) :: m, a, v =>
    if a < b then (a, v) :: (b, w) :: m
    else if a = b then (a, v) :: m
    else (b, w) :: Memory.set m a v

/-- The one canonical form: strictly rising offsets. An unlisted offset reads as no written byte, so no entry equals it. -/
abbrev Memory.wf (m : Memory) : Prop := m.Pairwise (fun x y => x.1 < y.1)

/-- `MemRead(IN, a, 1)` (00_scope.md R10). A byte nothing has written is a free value (log entry 3). -/
def State.inByte (s : State) (a : Nat) : Byte := (Memory.get s.inMem a).getD (Config.initialIn a)

/-- A host write of one input byte. -/
def State.storeIn (s : State) (a : Nat) (v : Byte) : State := { s with inMem := Memory.set s.inMem a v }

/-- What the output memory holds at an offset. A byte nothing has written is a free value (log entry 3). -/
def State.outByte (s : State) (a : Nat) : Byte := (Memory.get s.outMem a).getD (Config.initialOut s.outGen a)

/-- One output byte written. -/
def State.storeOut (s : State) (a : Nat) (v : Byte) : State := { s with outMem := Memory.set s.outMem a v }

/-- The output memory has a byte at this offset (20_memory.md R50). -/
def State.outHas (s : State) (a : Nat) : Bool := decide (a < s.place.outCap)

/-- The byte-serial copy (43_match.md R124): each byte is read and written before the next is read. On an offset that the output memory
does not have it answers that offset. -/
def copyBytes : Nat → Nat → Nat → State → Except Nat State
  | 0, _, _, s => .ok s
  | n + 1, src, dst, s =>
    if !s.outHas src then .error src
    else if !s.outHas dst then .error dst
    else copyBytes n (src + 1) (dst + 1) (s.storeOut dst (s.outByte src))

/-- `LE32(IN, a)` (20_memory.md R51). -/
def State.inWord (s : State) (a : Nat) : Word :=
  le32 (s.inByte a) (s.inByte (a + 1)) (s.inByte (a + 2)) (s.inByte (a + 3))

/-- Up to `n` bytes of the container from offset `p`: those below `IN_LEN` (20_memory.md R57). -/
def State.inBytes (s : State) : Nat → Nat → List Byte
  | 0, _ => []
  | n + 1, p => if p < s.inLen.toNat then s.inByte p :: s.inBytes n (p + 1) else []

/-! ## The two bounds checks -/

/-- `need(p, n)` passes: `p + n ≤ IN_LEN`, without wrapping (41_dispatch.md R103). -/
def State.need (s : State) (p n : Nat) : Bool := decide (p + n ≤ s.inLen.toNat)

/-- `room(n)` passes: `OUT_COUNT + n ≤ SIZE`, without wrapping (41_dispatch.md R105). -/
def State.room (s : State) (n : Nat) : Bool := decide (s.outCount.toNat + n ≤ s.size.toNat)

/-! ## The end of a step -/

/-- The local variables `p` and `c` of a decode step (41_dispatch.md R101): the offset of the token's first byte, and the command byte that
governs it. They are not architectural state. -/
structure Frame where
  p : Nat
  c : Byte
  deriving DecidableEq, Repr

/-- `commit(p, c, k)` with `k = (BIT_IDX + 1) mod 8` (41_dispatch.md R101). -/
def State.commit (s : State) (p : Nat) (c : Byte) : State :=
  { s with inPtr := BitVec.ofNat 32 p, cmd := c, bitIdx := nextBitIdx s.bitIdx }

/-- `OUT_COUNT <- OUT_COUNT + n`. -/
def State.emitted (s : State) (n : Nat) : State := { s with outCount := BitVec.ofNat 32 (s.writeCursor + n) }

/-- The registers after `raise E` (60_exceptions.md R148, R150): `STATE <- ERROR`, `CODE <- code(E)`, and nothing else. -/
def State.raised (s : State) (e : ErrorKind) : State := { s with status := .error, code := e.code }

/-- Error entry, the one way a command ends unsuccessfully (60_exceptions.md R148). There is no return from it: the host
writes a new command (60_exceptions.md R155). -/
def raiseError (e : ErrorKind) (s : State) : Host.Outcome State Fault Refusal := .next (s.raised e)

/-- The registers after `finish` (00_scope.md R10): `STATE <- DONE`, `CODE <- 0`. -/
def State.finished (s : State) : State := { s with status := .done, code := 0#4 }

/-! ## Launching a command -/

/-- Two ranges of storage have an address in common. -/
def Region.overlaps (a b : Region) : Bool := decide (max a.base b.base < min (a.base + a.len) (b.base + b.len))

/-- Where the container lies: input offsets `0 .. IN_LEN - 1` (20_memory.md R50). -/
def State.inRegion (s : State) : Region := { base := s.place.inBase, len := s.inLen.toNat }

/-- Where the output memory lies: output offsets `0 .. OUT_CAP - 1` (20_memory.md R50). -/
def State.outRegion (s : State) : Region := { base := s.place.outBase, len := s.place.outCap }

/-- The input and output memory share storage with each other or with another engine's (70_reset_and_hazards.md R177). -/
def State.memoriesShare (s : State) : Bool :=
  Region.overlaps s.inRegion s.outRegion
    || s.place.others.any (fun r => Region.overlaps s.inRegion r || Region.overlaps s.outRegion r)

/-- The launches a model gives no meaning: shared storage (R177), and a DECODE with `OUT_CAP < SIZE` (R175). -/
def State.launchRefusal (s : State) : Command → Option Refusal
  | .inspect => if s.memoriesShare then some .memoriesOverlap else none
  | .decode =>
    if s.memoriesShare then some .memoriesOverlap
    else if s.place.outCap < s.size.toNat then some .outputTooSmall
    else none

/-- The start common to both commands: `STATE <- BUSY`, `CODE <- 0` (10_state.md R32), and no completion of it has been seen (R176). -/
def State.launched (s : State) (c : Command) : State := { s with status := .busy c, code := 0#4, unseen := true }

/-! ## Reset input -/

/-- The reset input (70_reset_and_hazards.md R170): the eight registers take the values of 10_state.md R43, the memories keep theirs. -/
def State.assertReset (s : State) : State :=
  { s with
    status := .idle, code := 0#4, inLen := 0#32, size := 0#32,
    outCount := 0#32, inPtr := 0#32, cmd := 0#8, bitIdx := 0#3 }

end Sys2Proof.Machine
end

