-- ==== Sys2Proof/Machine/Ctrl.lean ====
section
/-! DEFINITION. The four commands of CTRL.OP: NOP, RSVD, INSPECT and DECODE (10_state.md R32). -/

namespace Sys2Proof.Machine

/-- NOP (10_state.md R32): no state changes. -/
def execNop (s : State) : Host.Outcome State Fault Refusal := .next s

/-- RSVD (30_encoding.md R84): ignored, like NOP. -/
def execRsvd (s : State) : Host.Outcome State Fault Refusal := .next s

/-- The INSPECT step (40_header.md R90), its checks in the order of R91. -/
def inspectStep (s : State) : Host.Outcome State Fault Refusal :=
  if !s.need 0 4 then raiseError .truncatedHeader s
  else if s.inWord 0 ≠ magic then raiseError .notCompressed s
  else if !s.need 0 headerLength then raiseError .truncatedHeader s
  else .next { s with size := s.inWord 4 }.finished

/-- INSPECT (10_state.md R32, 40_header.md R90). When no command is executing, this is the host's CTRL write: the command starts.
When INSPECT is executing, this is the engine's one step of it. While a DECODE is executing, it is ignored (10_state.md R41). -/
def execInspect (s : State) : Host.Outcome State Fault Refusal :=
  match s.status with
  | .busy .inspect => inspectStep s
  | .busy .decode => .next s
  | _ =>
    match s.launchRefusal .inspect with
    | some r => .refused r
    | none => .next (s.launched .inspect)

/-- The registers DECODE sets at its start (41_dispatch.md R100). -/
def State.decodeStarted (s : State) : State :=
  { s.launched .decode with
    inPtr := BitVec.ofNat 32 tokenBase, outCount := 0#32, bitIdx := 0#3, cmd := 0#8 }

/-- DECODE (41_dispatch.md R100): the host's CTRL write starts the command, and the decode steps that follow are the items of the
token stream (Machine/Token.lean). While a command is executing, it is ignored (10_state.md R41). -/
def execDecode (s : State) : Host.Outcome State Fault Refusal :=
  if s.busy then .next s
  else
    match s.launchRefusal .decode with
    | some r => .refused r
    | none => .next s.decodeStarted

end Sys2Proof.Machine
end

