-- ==== Sys2Proof/Machine/Token.lean ====
section
/-! DEFINITION. The items of the token stream: CMD, LIT, END and MATCH. The meaning of each is the one decode step (41_dispatch.md R101) that consumes it. -/

namespace Sys2Proof.Machine

/-! ## The token bodies -/

/-- `LIT_BODY` (42_literal.md R115). -/
def litBody (fr : Frame) (d : Byte) (s : State) : Host.Outcome State Fault Refusal :=
  if !s.need fr.p 1 then raiseError .truncatedInput s
  else if !s.room 1 then raiseError .outputOverflow s
  else if !s.outHas s.writeCursor then .fault (.engineOutputOffset s.writeCursor)
  else .next (((s.storeOut s.writeCursor d).emitted 1).commit (fr.p + 1) fr.c)

/-- `END_BODY` (44_sentinel.md R135), after the step frame's check for both token bytes (41_dispatch.md R103). The position field is ignored (R139). -/
def endBody (fr : Frame) (s : State) : Host.Outcome State Fault Refusal :=
  if !s.need fr.p 2 then raiseError .truncatedInput s
  else if s.outCount ≠ s.size then raiseError .sizeMismatch s
  else .next (s.commit (fr.p + 2) fr.c).finished

/-- `MATCH_BODY` (43_match.md R120), after the step frame's check for both token bytes (41_dispatch.md R103); the order of the checks is R129's. -/
def matchBody (fr : Frame) (position : BitVec 12) (rawLength : BitVec 4) (s : State) :
    Host.Outcome State Fault Refusal :=
  if !s.need fr.p 2 then raiseError .truncatedInput s
  else if s.writeCursor < matchDistance position then raiseError .invalidBackReference s
  else if !s.room (matchLength rawLength) then raiseError .outputOverflow s
  else
    match copyBytes (matchLength rawLength) (s.matchSource position) s.writeCursor s with
    | .error a => .fault (.engineOutputOffset a)
    | .ok t => .next ((t.emitted (matchLength rawLength)).commit (fr.p + 2) fr.c)

/-- The rest of a decode step once its command byte is known (41_dispatch.md R101): the flag selects the body, and the bytes at `p`
are the token. -/
def tokenStep (fr : Frame) (s : State) : Host.Outcome State Fault Refusal :=
  if !flagOf fr.c s.bitIdx then litBody fr (s.inByte fr.p) s
  else if !s.need fr.p 2 then raiseError .truncatedInput s
  else if rawLengthOf (s.inByte (fr.p + 1)) = 0#4 then endBody fr s
  else
    matchBody fr (positionOf (s.inByte fr.p) (s.inByte (fr.p + 1))) (rawLengthOf (s.inByte (fr.p + 1))) s

/-! ## The frame of a step -/

/-- The offset of the token of the next decode step: after the command byte when that step fetches one. -/
def State.tokenStart (s : State) : Nat := if s.bitIdx = 0#3 then s.inPtr.toNat + 1 else s.inPtr.toNat

/-- The command byte that governs the token of the next decode step: the one fetched, or `CMD`. -/
def State.groupByte (s : State) : Byte := if s.bitIdx = 0#3 then s.inByte s.inPtr.toNat else s.cmd

/-- The frame of the next decode step. -/
def State.frame (s : State) : Frame := { p := s.tokenStart, c := s.groupByte }

/-! ## The meanings -/

/-- CMD (41_dispatch.md R102): the decode step that fetches command byte `c` at `IN_PTR`, and goes on with the token after it. The
fetch is not a step of its own: it is committed together with the token's own effect. -/
def execCmd (c : Byte) (s : State) : Host.Outcome State Fault Refusal :=
  if !s.need s.inPtr.toNat 1 then raiseError .truncatedInput s
  else tokenStep { p := s.inPtr.toNat + 1, c := c } s

/-- LIT (42_literal.md R115): the decode step whose token is the literal `d`. -/
def execLit (d : Byte) (s : State) : Host.Outcome State Fault Refusal := litBody s.frame d s

/-- END (44_sentinel.md R135): the decode step whose token is a sentinel. -/
def execSentinel (_position : BitVec 12) (s : State) : Host.Outcome State Fault Refusal := endBody s.frame s

/-- MATCH (43_match.md R120): the decode step whose token is this back-reference. -/
def execBackref (position : BitVec 12) (rawLength : BitVec 4) (s : State) : Host.Outcome State Fault Refusal :=
  matchBody s.frame position rawLength s

end Sys2Proof.Machine
end

