-- ==== Sys2Proof/Machine/Dispatch.lean ====
section
/-! DEFINITION. One arm for each instruction. -/

namespace Sys2Proof.Machine

def exec (i : Instr) (s : State) : Host.Outcome State Fault Refusal :=
  match i with
  -- the items of the token stream: one decode step each
  | .cmd c => Sys2Proof.Machine.execCmd c s
  | .lit d => Sys2Proof.Machine.execLit d s
  | .sentinel position => Sys2Proof.Machine.execSentinel position s
  | .backref position rawLength => Sys2Proof.Machine.execBackref position rawLength s
  -- the commands of CTRL.OP
  | .nop => Sys2Proof.Machine.execNop s
  | .inspect => Sys2Proof.Machine.execInspect s
  | .decode => Sys2Proof.Machine.execDecode s
  | .rsvd => Sys2Proof.Machine.execRsvd s

end Sys2Proof.Machine
end

