-- ==== Sys2Proof/Machine/Engine.lean ====
section
/-! DEFINITION. The engine's turn: fetching the next item of the token stream, and one engine step (41_dispatch.md R101, R106); and placing an item where the engine fetches it. -/

namespace Sys2Proof.Machine

/-- The format of the next item (30_encoding.md R80). -/
def State.select (s : State) : Select :=
  if s.bitIdx = 0#3 then .command else .token (flagOf s.cmd s.bitIdx)

/-- The next item of the token stream, decoded from the container's bytes at `IN_PTR`. -/
def fetchItem (s : State) : Except Reject Instr :=
  match decodeStream s.select (s.inBytes s.select.length s.inPtr.toNat) with
  | .ok (i, _) => .ok i
  | .error r => .error r

/-- One engine step. A DECODE processes one token (41_dispatch.md R101); missing bytes are `TruncatedInput` (R103). An INSPECT is one
step (40_header.md R90). With no command executing the engine takes no step: it keeps every register (60_exceptions.md R148, R166). -/
def engineStep (s : State) : Host.Outcome State Fault Refusal :=
  match s.status with
  | .busy .inspect => exec .inspect s
  | .busy .decode =>
    match fetchItem s with
    | .error .missingBytes => raiseError .truncatedInput s
    | .ok i => exec i s
  | .idle => .next s
  | .done => .next s
  | .error => .next s

/-- Bytes written to the input memory from offset `p` on. -/
def State.loadBytes (s : State) (p : Nat) : List Byte → State
  | [] => s
  | b :: rest => (s.storeIn p b).loadBytes (p + 1) rest

/-- Where `placeItem` puts an item: at `IN_PTR` when a DECODE is executing there, else at `TOKEN_BASE`. -/
def State.placeOffset (s : State) : Nat :=
  if s.status = .busy .decode ∧ s.inPtr.toNat + 3 < 2 ^ 32 then s.inPtr.toNat else tokenBase

/-- The longest decode step reads 3 bytes: a command byte and a 2-byte token (41_dispatch.md R107). -/
def padTo3 (bytes : List Byte) : List Byte := (bytes ++ [0#8, 0#8, 0#8]).take 3

/-- A state in which a DECODE is executing and its next item is these bytes under this selector, followed by zeros. -/
def State.placeItem (s : State) (sel : Select) (bytes : List Byte) : State :=
  let p := s.placeOffset
  let t := s.loadBytes p (padTo3 bytes)
  { t with
    status := .busy .decode
    unseen := true
    inPtr := BitVec.ofNat 32 p
    inLen := if s.inLen.toNat < p + 3 then BitVec.ofNat 32 (p + 3) else s.inLen
    bitIdx := match sel with
      | .command => 0#3
      | .token _ => 1#3
    cmd := match sel with
      | .command => s.cmd
      | .token flag => if flag then 0b10#8 else 0b00#8
    turns := .engine :: s.turns }

/-- A state in which the host's next turn writes this word to CTRL, with no command executing. -/
def State.placeCtrl (s : State) (w : Word) : State :=
  { s with
    status := if s.busy then .idle else s.status
    turns := .host (.regWrite 32 0x00#32 w) :: s.turns }

end Sys2Proof.Machine
end

