-- ==== Sys2Proof/Machine/HostPort.lean ====
section
/-! DEFINITION. The host's turn: the register block (10_state.md R31 to R41), the host's accesses to the two memories (20_memory.md R50, R62), and the reset input (70_reset_and_hazards.md R170). -/

namespace Sys2Proof.Machine

/-- What a 32-bit read of the register block returns (10_state.md R31 to R39). -/
def State.regValue (s : State) (offset : Word) : Word :=
  if offset = 0x00#32 then 0#32
  else if offset = 0x04#32 then s.statusWord
  else if offset = 0x08#32 then s.inLen
  else if offset = 0x0C#32 then s.size
  else if offset = 0x10#32 then s.outCount
  else if offset = 0x14#32 then s.inPtr
  else if offset = 0x18#32 then s.debugWord
  else 0#32

/-- A 32-bit write of the register block. A CTRL write runs the command it spells (R32); CTRL, IN_LEN and SIZE writes are ignored
while BUSY (R41); every other write is ignored (R33, R36 to R39). -/
def regStore (offset value : Word) (s : State) : Host.Outcome State Fault Refusal :=
  if s.busy then .next s
  else if offset = 0x00#32 then exec (decodeCtrl value) s
  else if offset = 0x08#32 then .next { s with inLen := value }
  else if offset = 0x0C#32 then .next { s with size := value }
  else .next s

/-- A register access has a meaning: 32 bits wide, at a multiple of 4 (10_state.md R40). -/
def regAccessOk (bits : Nat) (offset : Word) : Bool := decide (bits = 32) && decide (offset.toNat % 4 = 0)

/-- This read is one of STATUS that shows `STATE ≠ BUSY` (70_reset_and_hazards.md R176): from it on the output writes of the command are visible to the
host. 20_memory.md R62 says so of DONE and ERROR, "for that command". DEDUCED (log entry 9): IDLE, behind a reset input, counts too, and a read behind a
later command makes visible what every earlier command wrote, an earlier DECODE whose own end the host never saw among them. -/
def State.seesCompletion (s : State) (offset : Word) : Bool := decide (offset = 0x04#32) && !s.busy

/-- The memories are the engine's: while `STATE = BUSY`. Ownership passes back to the host when `STATE` leaves BUSY (60_exceptions.md R159,
log entry 9). -/
def State.engineOwns (s : State) : Bool := s.busy

/-- The host may not rely on reading the output: while BUSY, and until the host has read STATUS with `STATE ≠ BUSY` (70_reset_and_hazards.md
R176, 20_memory.md R62). -/
def State.outputUnsettled (s : State) : Bool := s.unseen || s.engineOwns

/-- One act of the host. The spec forbids the input and the output memory to share storage and refuses a launch where they do (20_memory.md R65,
70_reset_and_hazards.md R177); it says nothing of host accesses made while they do and no command is launched. DESIGN CHOICE (log
entry 21): the two are independent memories here, wherever they are placed, so a write of one never changes a byte of the other. -/
def hostAct : HostAct → State → Host.Outcome State Fault Refusal
  | .regRead bits offset, s =>
    if !regAccessOk bits offset then .refused .registerAccessForm
    else .next { s with readData := s.regValue offset, unseen := s.unseen && !s.seesCompletion offset }
  | .regWrite bits offset value, s =>
    if !regAccessOk bits offset then .refused .registerAccessForm
    else regStore offset value s
  | .inRead offset, s => .next { s with readData := (s.inByte offset.toNat).setWidth 32 }
  | .inWrite offset value, s =>
    if s.engineOwns then .refused .hostMemoryWhileOwned
    else .next (s.storeIn offset.toNat value)
  | .outRead offset, s =>
    if !s.outHas offset.toNat then .fault (.hostOutputOffset offset.toNat)
    else if s.outputUnsettled then
      .next { s with readData := (Config.unseenOutRead s.draws).setWidth 32, draws := s.draws + 1 }
    else .next { s with readData := (s.outByte offset.toNat).setWidth 32 }
  | .outWrite offset value, s =>
    if s.engineOwns then .refused .hostMemoryWhileOwned
    else if !s.outHas offset.toNat then .fault (.hostOutputOffset offset.toNat)
    else .next (s.storeOut offset.toNat value)
  | .provideOut base cap, s =>
    if s.engineOwns then .refused .hostMemoryWhileOwned
    else .next { s with
      outMem := [], outGen := s.outGen + 1,
      place := { s.place with outBase := base, outCap := cap } }
  | .reset, s => .next s.assertReset

end Sys2Proof.Machine
end

