-- ==== Sys2Proof/Machine/Step.lean ====
section
/-! DEFINITION. One step of the whole machine: the turn that is due, taken by the engine or by the host (10_state.md R20). -/

namespace Sys2Proof.Machine

/-- One step. The turn at the front of `turns` is consumed; where none is listed, the engine moves. -/
def step (s : State) : Host.Outcome State Fault Refusal :=
  match s.turns with
  | [] => engineStep s
  | .engine :: rest => engineStep { s with turns := rest }
  | .host act :: rest => hostAct act { s with turns := rest }

/-- The state in which the next step runs the instruction of this table word, with zeros above it (log entry 6). -/
def State.withFetchWord (s : State) (nbits w : Nat) : State :=
  match tableCode nbits w with
  | none => s
  | some (.stream sel bytes) => s.placeItem sel bytes
  | some (.ctrl word) => s.placeCtrl word

end Sys2Proof.Machine
end

