-- ==== Sys2Proof/Safety.lean ====
section
/-! DEFINITION. The terms claims are made in: the invariant of 10_state.md R44, what the output memory holds as a list, and what a list of tokens expands to. -/

namespace Sys2Proof.Machine

/-- What holds of every state a run reaches: the canonical form of both memories, the legal values of CODE (10_state.md R33), and
while a DECODE is executing the facts of 10_state.md R44 and 70_reset_and_hazards.md R175 and R177. -/
structure StateInv (s : State) : Prop where
  inForm : Memory.wf s.inMem
  inOffsets : ∀ x ∈ s.inMem, x.1 < 2 ^ 32
  outForm : Memory.wf s.outMem
  outOffsets : ∀ x ∈ s.outMem, x.1 < s.place.outCap
  codeLegal : s.code.toNat ≤ 6
  codeError : s.status = .error ↔ s.code ≠ 0#4
  busyUnseen : s.busy = true → s.unseen = true
  busyDisjoint : s.busy = true → s.memoriesShare = false
  cursor : s.status = .busy .decode → s.inPtr.toNat = 8 ∨ (8 < s.inPtr.toNat ∧ s.inPtr.toNat ≤ s.inLen.toNat)
  countSize : s.status = .busy .decode → s.outCount.toNat ≤ s.size.toNat
  sizeCap : s.status = .busy .decode → s.size.toNat ≤ s.place.outCap
  written : s.status = .busy .decode → ∀ a < s.outCount.toNat, (Memory.get s.outMem a).isSome = true

/-- The engine takes the next turn. -/
def State.engineNext (s : State) : Bool :=
  match s.turns with
  | [] => true
  | .engine :: _ => true
  | .host _ :: _ => false

/-- The state once the turn at the front has been consumed. -/
def State.turnTaken (s : State) : State := { s with turns := s.turns.tail }

/-- How many of the next `n` turns are the engine's, with these turns to come. -/
def engineTurns : Nat → List Turn → Nat
  | 0, _ => 0
  | n + 1, [] => n + 1
  | n + 1, .engine :: rest => engineTurns n rest + 1
  | n + 1, .host _ :: rest => engineTurns n rest

/-- The output so far: output offsets `0 .. OUT_COUNT - 1` (20_memory.md R59). -/
def State.output (s : State) : List Byte := (List.range s.outCount.toNat).map s.outByte

/-- How many bytes an instruction stores to the output memory when it completes, from offset `OUT_COUNT` on (42_literal.md R115,
43_match.md R120); a CMD stores what the token after it stores, so it is not counted here. -/
def storeLength : Instr → Nat
  | .cmd _ => 0
  | .lit _ => 1
  | .sentinel _ => 0
  | .backref _ rawLength => matchLength rawLength
  | .nop => 0
  | .inspect => 0
  | .decode => 0
  | .rsvd => 0

/-- `n` bytes appended one after another, each a copy of the byte `d` before the end (00_scope.md R13, 43_match.md R124). -/
def appendCopy : Nat → Nat → List Byte → List Byte
  | 0, _, out => out
  | n + 1, d, out => appendCopy n d (out ++ [out.getD (out.length - d) 0#8])

/-- What one token makes of the output before it; none for a match that reaches before the start, and for what is no
output-producing token (00_scope.md R13). -/
def expandToken (out : List Byte) : Instr → Option (List Byte)
  | .lit d => some (out ++ [d])
  | .backref position rawLength =>
    if matchDistance position ≤ out.length then
      some (appendCopy (matchLength rawLength) (matchDistance position) out)
    else none
  | .cmd _ => none
  | .sentinel _ => none
  | .nop => none
  | .inspect => none
  | .decode => none
  | .rsvd => none

/-- What a list of tokens makes of the output before it. -/
def expand (out : List Byte) : List Instr → Option (List Byte)
  | [] => some out
  | t :: rest =>
    match expandToken out t with
    | none => none
    | some out' => expand out' rest

end Sys2Proof.Machine
end

