-- ==== Sys2Proof/Certificates/Slice0/Obligations.lean ====
section
/-! DEFINITION. The statements about the model, one def each. -/

open Sys2Proof Sys2Proof.Machine

/-! ## Reset and the idle engine -/

/-- 10_state.md R43: the value of every register after reset, and that both memories are unspecified: each byte reads as a free value
(the form of that free value is log entry 3's; the statement holds for every value of it). -/
def Obligations.ResetRegisterValues : Prop :=
  State.reset.status = .idle ∧ State.reset.status.bits = 0#2 ∧ State.reset.code = 0#4
  ∧ State.reset.inLen = 0#32 ∧ State.reset.size = 0#32 ∧ State.reset.outCount = 0#32
  ∧ State.reset.inPtr = 0#32 ∧ State.reset.cmd = 0#8 ∧ State.reset.bitIdx = 0#3
  ∧ (∀ a, State.reset.inByte a = Config.initialIn a)
  ∧ (∀ a, State.reset.outByte a = Config.initialOut State.reset.outGen a)

/-- 70_reset_and_hazards.md R170: the reset input, from every state. That it leaves everything but the eight registers and the two memories (the completion
mark, the placement, what the host has read, the counters of the free values) as it was is the model's: log entries 16 and 9. -/
def Obligations.ResetInputFromEveryState : Prop :=
  ∀ (s : State) (rest : List Turn), s.turns = .host .reset :: rest →
    step s = .next { s with
      status := .idle, code := 0#4, inLen := 0#32, size := 0#32,
      outCount := 0#32, inPtr := 0#32, cmd := 0#8, bitIdx := 0#3, turns := rest }

/-- 70_reset_and_hazards.md R171: after reset the engine is IDLE; with no command executing the engine's turn changes nothing, and no host turn but a CTRL
write of INSPECT or DECODE makes a state BUSY that is not. -/
def Obligations.EngineTakesNoStepUntilCommanded : Prop :=
  State.reset.status = .idle
  ∧ (∀ s : State, s.busy = false → s.engineNext = true → step s = .next s.turnTaken)
  ∧ ∀ (s t : State) (act : HostAct) (rest : List Turn), s.busy = false → s.turns = .host act :: rest →
    (∀ w, act = .regWrite 32 0x00#32 w → w.extractLsb' 0 2 = 0b00#2 ∨ w.extractLsb' 0 2 = 0b11#2) →
    step s = .next t → t.busy = false

/-! ## The register block -/

/-- 10_state.md R33: STATUS: its fields, that a write of it is ignored, that a read of it changes no register and no memory, and that CODE
stays legal. That the read keeps the completion mark exactly while BUSY is the model's: log entry 9. -/
def Obligations.StatusRegisterFields : Prop :=
  ∀ s : State,
    (s.regValue 0x04#32).extractLsb' 0 2 = s.status.bits
    ∧ (s.regValue 0x04#32).extractLsb' 2 2 = 0#2
    ∧ (s.regValue 0x04#32).extractLsb' 4 4 = s.code
    ∧ (s.regValue 0x04#32).extractLsb' 8 24 = 0#24
    ∧ (∀ v, hostAct (.regWrite 32 0x04#32 v) s = .next s)
    ∧ hostAct (.regRead 32 0x04#32) s
        = .next { s with readData := s.regValue 0x04#32, unseen := s.unseen && s.busy }
    ∧ (StateInv s → s.code.toNat ≤ 6)

/-- 10_state.md R38: DEBUG: its fields, that a write of it is ignored, and that a read changes nothing but what the host has read. -/
def Obligations.DebugRegisterFields : Prop :=
  ∀ s : State,
    (s.regValue 0x18#32).extractLsb' 0 8 = s.cmd
    ∧ (s.regValue 0x18#32).extractLsb' 8 3 = s.bitIdx
    ∧ (s.regValue 0x18#32).extractLsb' 11 21 = 0#21
    ∧ (∀ v, hostAct (.regWrite 32 0x18#32 v) s = .next s)
    ∧ hostAct (.regRead 32 0x18#32) s = .next { s with readData := s.regValue 0x18#32 }

/-- 10_state.md R39, with the map of R31: what a 32-bit read of each offset returns, and that writes of the read-only and of the unmapped offsets are ignored.
That a read keeps the completion mark, but for a read of STATUS while not BUSY, is the model's: log entry 9. -/
def Obligations.RegisterMapReadsAndIgnoredWrites : Prop :=
  ∀ (s : State) (offset : Word), offset.toNat % 4 = 0 →
    hostAct (.regRead 32 offset) s = .next { s with
        readData := s.regValue offset
        unseen := if offset = 0x04#32 then s.unseen && s.busy else s.unseen }
    ∧ s.regValue 0x00#32 = 0#32 ∧ s.regValue 0x04#32 = s.statusWord
    ∧ s.regValue 0x08#32 = s.inLen ∧ s.regValue 0x0C#32 = s.size
    ∧ s.regValue 0x10#32 = s.outCount ∧ s.regValue 0x14#32 = s.inPtr
    ∧ s.regValue 0x18#32 = s.debugWord
    ∧ (0x1C ≤ offset.toNat → s.regValue offset = 0#32)
    ∧ (offset.toNat = 0x04 ∨ 0x10 ≤ offset.toNat →
        ∀ v, hostAct (.regWrite 32 offset v) s = .next s)

/-- 10_state.md R39: an offset of the register block other than those of R31 reads 0, and a write to it is ignored. -/
def Obligations.UnmappedOffsetsReadZero : Prop :=
  ∀ (s : State) (offset : Word), offset.toNat % 4 = 0 → 0x1C ≤ offset.toNat →
    hostAct (.regRead 32 offset) s = .next { s with readData := 0#32 }
    ∧ ∀ v, hostAct (.regWrite 32 offset v) s = .next s

/-- 10_state.md R34, and the host's side of R35: IN_LEN and SIZE are written while not BUSY and read back. -/
def Obligations.HostSetsLengthAndSize : Prop :=
  ∀ (s : State) (v : Word),
    (s.busy = false →
      hostAct (.regWrite 32 0x08#32 v) s = .next { s with inLen := v }
      ∧ hostAct (.regWrite 32 0x0C#32 v) s = .next { s with size := v })
    ∧ (s.busy = true →
      hostAct (.regWrite 32 0x08#32 v) s = .next s ∧ hostAct (.regWrite 32 0x0C#32 v) s = .next s)
    ∧ hostAct (.regRead 32 0x08#32) s = .next { s with readData := s.inLen }
    ∧ hostAct (.regRead 32 0x0C#32) s = .next { s with readData := s.size }

/-- 10_state.md R41: register writes while BUSY change nothing. -/
def Obligations.RegisterWritesIgnoredWhileBusy : Prop :=
  ∀ (s : State) (offset v : Word), s.busy = true → offset.toNat % 4 = 0 →
    hostAct (.regWrite 32 offset v) s = .next s

/-- 10_state.md R40: an access of another width or at an offset that is not a multiple of 4 is refused. -/
def Obligations.MalformedRegisterAccessRefused : Prop :=
  ∀ (s : State) (bits : Nat) (offset v : Word), bits ≠ 32 ∨ offset.toNat % 4 ≠ 0 →
    hostAct (.regRead bits offset) s = .refused .registerAccessForm
    ∧ hostAct (.regWrite bits offset v) s = .refused .registerAccessForm

/-- 30_encoding.md R77 and 10_state.md R32: a CTRL write while not BUSY runs the command of its bits [1:0]. -/
def Obligations.CtrlWriteRunsItsCommand : Prop :=
  (∀ w : Word,
    (w.extractLsb' 0 2 = 0b00#2 → decodeCtrl w = .nop)
    ∧ (w.extractLsb' 0 2 = 0b01#2 → decodeCtrl w = .inspect)
    ∧ (w.extractLsb' 0 2 = 0b10#2 → decodeCtrl w = .decode)
    ∧ (w.extractLsb' 0 2 = 0b11#2 → decodeCtrl w = .rsvd))
  ∧ ∀ (s : State) (w : Word) (rest : List Turn), s.turns = .host (.regWrite 32 0x00#32 w) :: rest →
    (s.busy = false → step s = exec (decodeCtrl w) s.turnTaken)
    ∧ (s.busy = true → step s = .next s.turnTaken)

/-- 30_encoding.md R84: OP = 0b11 behaves as OP = 0b00, which is no operation; bits [31:2] change nothing of what a word spells. -/
def Obligations.NopAndReservedChangeNothing : Prop :=
  (∀ s : State, exec .nop s = .next s ∧ exec .rsvd s = .next s
    ∧ ∀ w : Word, w.extractLsb' 0 2 = 0b00#2 ∨ w.extractLsb' 0 2 = 0b11#2 →
        hostAct (.regWrite 32 0x00#32 w) s = .next s)
  ∧ ∀ w v : Word, w.extractLsb' 0 2 = v.extractLsb' 0 2 → decodeCtrl w = decodeCtrl v

/-! ## The host and the memories -/

/-- 70_reset_and_hazards.md R176 and 60_exceptions.md R159: while the memories are the engine's, that is while BUSY, no host write of them has a meaning.
That the provision of another output memory counts as such a write is log entry 10. -/
def Obligations.HostMemoryWritesRefusedWhileOwned : Prop :=
  ∀ (s : State) (offset : Word) (v : Byte) (base cap : Nat), s.busy = true →
    hostAct (.inWrite offset v) s = .refused .hostMemoryWhileOwned
    ∧ hostAct (.outWrite offset v) s = .refused .hostMemoryWhileOwned
    ∧ hostAct (.provideOut base cap) s = .refused .hostMemoryWhileOwned

/-- 70_reset_and_hazards.md R174 step 3 and 60_exceptions.md R159: once STATE is not BUSY the host can provide an output memory. That it comes with free
contents, and changes nothing else, is log entry 10; the statement holds for every value of those contents. -/
def Obligations.HostProvidesOutputMemory : Prop :=
  ∀ (s : State) (base cap : Nat), s.busy = false →
    ∃ t, hostAct (.provideOut base cap) s = .next t
      ∧ t = { s with
          outMem := [], outGen := s.outGen + 1, place := { s.place with outBase := base, outCap := cap } }
      ∧ ∀ a, t.outByte a = Config.initialOut (s.outGen + 1) a

/-- 20_memory.md R62: once the host has read STATUS with STATE DONE or ERROR, a read of the output memory returns what that memory holds. That a read of
STATUS with STATE IDLE (behind a reset input that left the completion mark) does the same, that one behind a later command
makes visible what an earlier, unseen one wrote (R62 says "for that command"), and that the read of STATUS clears that mark, is log entry 9, from 70_reset_and_hazards.md R176's "until the host reads STATUS with `STATE ≠ BUSY`". -/
def Obligations.OutputVisibleAfterCompletionRead : Prop :=
  ∀ (s : State) (offset : Word) (rest : List Turn), s.busy = false → offset.toNat < s.place.outCap →
    s.turns = .host (.regRead 32 0x04#32) :: .host (.outRead offset) :: rest →
    ∃ t u, step s = .next t ∧ t.unseen = false ∧ t.readData = s.statusWord
      ∧ step t = .next u ∧ u.readData = (s.outByte offset.toNat).setWidth 32
      ∧ u.outMem = s.outMem ∧ u.turns = rest

/-- 20_memory.md R62, 70_reset_and_hazards.md R176: while BUSY, and until the host has read STATUS with `STATE ≠ BUSY`, a host read of the output returns a
free value. The statement holds for every value of that constant, and rests on log entries 4 and 9. -/
def Obligations.OutputReadWhileOwnedIsFree : Prop :=
  ∀ (s : State) (offset : Word), s.busy = true ∨ s.unseen = true → offset.toNat < s.place.outCap →
    hostAct (.outRead offset) s
      = .next { s with readData := (Config.unseenOutRead s.draws).setWidth 32, draws := s.draws + 1 }

/-- 20_memory.md R50, R56, and 60_exceptions.md R159: while not BUSY a host write of one byte stores it, and every other byte of both memories reads as before
(that the two memories are independent wherever they are placed is log entry 21). A host read of an input byte returns it in every state, BUSY
included (log entry 18); a host read of an output byte returns it once the host has read STATUS with `STATE ≠ BUSY` (log entry 9). -/
def Obligations.HostMemoryAccess : Prop :=
  ∀ (s : State) (offset : Word) (v : Byte),
    (s.busy = false →
      ∃ t, hostAct (.inWrite offset v) s = .next t ∧ t = { s with inMem := t.inMem }
        ∧ t.inByte offset.toNat = v ∧ ∀ a, a ≠ offset.toNat → t.inByte a = s.inByte a)
    ∧ (s.busy = false → offset.toNat < s.place.outCap →
        ∃ t, hostAct (.outWrite offset v) s = .next t ∧ t = { s with outMem := t.outMem }
          ∧ t.outByte offset.toNat = v ∧ ∀ a, a ≠ offset.toNat → t.outByte a = s.outByte a)
    ∧ hostAct (.inRead offset) s = .next { s with readData := (s.inByte offset.toNat).setWidth 32 }
    ∧ (s.busy = false → s.unseen = false → offset.toNat < s.place.outCap →
        hostAct (.outRead offset) s = .next { s with readData := (s.outByte offset.toNat).setWidth 32 })

/-! ## INSPECT -/

/-- 10_state.md R32: INSPECT starts. That the start and the step are two steps of the machine is log entry 5, and the completion mark
it sets is log entry 9: both are the model's. -/
def Obligations.InspectStart : Prop :=
  ∀ s : State, s.busy = false → s.memoriesShare = false →
    exec .inspect s = .next { s with status := .busy .inspect, code := 0#4, unseen := true }

/-- 40_header.md R91, with the pseudocode of R90: the one step of INSPECT, with the checks in their order. -/
def Obligations.InspectStep : Prop :=
  ∀ s : State, s.status = .busy .inspect →
    (s.inLen.toNat < 4 → exec .inspect s = .next { s with status := .error, code := 2#4 })
    ∧ (4 ≤ s.inLen.toNat →
        le32 (s.inByte 0) (s.inByte 1) (s.inByte 2) (s.inByte 3) ≠ 1397971532#32 →
        exec .inspect s = .next { s with status := .error, code := 1#4 })
    ∧ (4 ≤ s.inLen.toNat → s.inLen.toNat < 8 →
        le32 (s.inByte 0) (s.inByte 1) (s.inByte 2) (s.inByte 3) = 1397971532#32 →
        exec .inspect s = .next { s with status := .error, code := 2#4 })
    ∧ (8 ≤ s.inLen.toNat →
        le32 (s.inByte 0) (s.inByte 1) (s.inByte 2) (s.inByte 3) = 1397971532#32 →
        exec .inspect s = .next { s with
          size := le32 (s.inByte 4) (s.inByte 5) (s.inByte 6) (s.inByte 7)
          status := .done, code := 0#4 })

/-- 40_header.md R94: INSPECT, its start and its step, writes no memory and no decoder register, and reads no input byte but 0..7: another input
memory that agrees on those gives the same result. -/
def Obligations.InspectReadsOnlyHeader : Prop :=
  ∀ (s t : State) (m : Memory),
    (∀ a, a < 8 → ({ s with inMem := m } : State).inByte a = s.inByte a) →
    exec .inspect s = .next t →
    exec .inspect { s with inMem := m } = .next { t with inMem := m }
      ∧ t.outCount = s.outCount ∧ t.inPtr = s.inPtr ∧ t.cmd = s.cmd ∧ t.bitIdx = s.bitIdx
      ∧ t.inLen = s.inLen ∧ t.inMem = s.inMem ∧ t.outMem = s.outMem

/-- 40_header.md R96: the magic test compares all 32 bits, so the first four bytes are exactly 4C 5A 53 53; every other container of 4 or more
bytes is NotCompressed, one that starts with 43 4C 53 5A among them. -/
def Obligations.MagicIsFourExactBytes : Prop :=
  ∀ s : State, s.status = .busy .inspect → 4 ≤ s.inLen.toNat →
    ((s.inByte 0 = 0x4C#8 ∧ s.inByte 1 = 0x5A#8 ∧ s.inByte 2 = 0x53#8 ∧ s.inByte 3 = 0x53#8)
      ↔ exec .inspect s ≠ .next { s with status := .error, code := 1#4 })
    ∧ (s.inByte 0 = 0x43#8 → s.inByte 1 = 0x4C#8 → s.inByte 2 = 0x53#8 → s.inByte 3 = 0x5A#8 →
        exec .inspect s = .next { s with status := .error, code := 1#4 })

/-- 30_encoding.md R71: a container that starts with an encoded header passes INSPECT with that size. -/
def Obligations.EncodedHeaderPassesInspect : Prop :=
  ∀ (s : State) (size : Word), s.status = .busy .inspect → 8 ≤ s.inLen.toNat →
    (∀ k, k < 8 → some (s.inByte k) = (encodeHeader magic size)[k]?) →
    exec .inspect s = .next { s with size := size, status := .done, code := 0#4 }

/-! ## DECODE and launches -/

/-- 41_dispatch.md R100: the registers DECODE sets at its start, and that nothing else changes but the model's completion mark (log entry 9). -/
def Obligations.DecodeStart : Prop :=
  ∀ s : State, s.busy = false → s.memoriesShare = false → s.size.toNat ≤ s.place.outCap →
    exec .decode s = .next { s with
      status := .busy .decode, code := 0#4, unseen := true,
      inPtr := 8#32, outCount := 0#32, bitIdx := 0#3, cmd := 0#8 }

/-- 70_reset_and_hazards.md R173: nothing an earlier command left in the registers but IN_LEN and SIZE reaches a DECODE. -/
def Obligations.DecodeForgetsEarlierCommands : Prop :=
  ∀ (s : State) (status : Status) (code : BitVec 4) (outCount inPtr : Word) (cmd : Byte) (bitIdx : BitVec 3),
    s.busy = false → status.isBusy = false →
    exec .decode { s with
      status := status, code := code, outCount := outCount, inPtr := inPtr, cmd := cmd, bitIdx := bitIdx }
    = exec .decode s

/-- 70_reset_and_hazards.md R177: a launch is refused for shared storage exactly when an address of one memory is one of another.
The extents of the memories, and that INSPECT is a launch too, are log entry 8. -/
def Obligations.LaunchRefusedExactlyWhenStorageShared : Prop :=
  ∀ s : State, s.busy = false →
    ((exec .inspect s = .refused .memoriesOverlap ↔
      ((∃ i j, i < s.inLen.toNat ∧ j < s.place.outCap ∧ s.place.inBase + i = s.place.outBase + j)
      ∨ ∃ r ∈ s.place.others, ∃ k, k < r.len ∧
          ((∃ i, i < s.inLen.toNat ∧ s.place.inBase + i = r.base + k)
          ∨ ∃ j, j < s.place.outCap ∧ s.place.outBase + j = r.base + k)))
    ∧ (exec .decode s = .refused .memoriesOverlap ↔ exec .inspect s = .refused .memoriesOverlap))

/-- 70_reset_and_hazards.md R175: a DECODE launched with `OUT_CAP < SIZE` is refused. -/
def Obligations.UndersizedOutputRefused : Prop :=
  ∀ s : State, s.busy = false → s.memoriesShare = false → s.place.outCap < s.size.toNat →
    exec .decode s = .refused .outputTooSmall

/-! ## The tokens -/

/-- 42_literal.md R115: LIT, its two errors in their order, its effect, and that the literal is the input byte at the token's offset (for a literal
behind a command byte of the same step, CommandByteCompletes says so). -/
def Obligations.LiteralStep : Prop :=
  ∀ (s : State) (d : Byte),
    (s.inLen.toNat < s.tokenStart + 1 →
      exec (.lit d) s = .next { s with status := .error, code := 3#4 })
    ∧ (s.tokenStart + 1 ≤ s.inLen.toNat → s.size.toNat ≤ s.outCount.toNat →
      exec (.lit d) s = .next { s with status := .error, code := 5#4 })
    ∧ (s.tokenStart + 1 ≤ s.inLen.toNat → s.outCount.toNat < s.size.toNat → s.size.toNat ≤ s.place.outCap →
      exec (.lit d) s = .next { s with
        outMem := Memory.set s.outMem s.writeCursor d
        outCount := s.outCount + 1#32
        inPtr := BitVec.ofNat 32 (s.tokenStart + 1)
        cmd := s.groupByte, bitIdx := s.bitIdx + 1#3 })
    ∧ (s.engineNext = true → s.status = .busy .decode → s.bitIdx ≠ 0#3 →
      s.cmd.getLsbD s.bitIdx.toNat = false → s.inPtr.toNat < s.inLen.toNat →
      step s = exec (.lit (s.inByte s.inPtr.toNat)) s.turnTaken)

/-- 43_match.md R122 and the order of R129's last two checks: a MATCH that fails writes nothing but STATE and CODE. -/
def Obligations.MatchErrors : Prop :=
  ∀ (s : State) (position : BitVec 12) (rawLength : BitVec 4),
    (s.inLen.toNat < s.tokenStart + 2 →
      exec (.backref position rawLength) s = .next { s with status := .error, code := 3#4 })
    ∧ (s.tokenStart + 2 ≤ s.inLen.toNat → s.outCount.toNat ≤ position.toNat →
      exec (.backref position rawLength) s = .next { s with status := .error, code := 4#4 })
    ∧ (s.tokenStart + 2 ≤ s.inLen.toNat → position.toNat < s.outCount.toNat →
      s.size.toNat < s.outCount.toNat + (rawLength.toNat + 1) →
      exec (.backref position rawLength) s = .next { s with status := .error, code := 5#4 })

/-- 43_match.md R125: a MATCH that passes its checks completes, its `length` bytes are the closed form, and nothing else changes but the
cursors and the command byte. -/
def Obligations.MatchCopiesClosedForm : Prop :=
  ∀ (s : State) (position : BitVec 12) (rawLength : BitVec 4),
    s.tokenStart + 2 ≤ s.inLen.toNat → position.toNat < s.outCount.toNat →
    s.outCount.toNat + (rawLength.toNat + 1) ≤ s.size.toNat → s.size.toNat ≤ s.place.outCap →
    ∃ m : Memory,
      exec (.backref position rawLength) s = .next { s with
        outMem := m
        outCount := BitVec.ofNat 32 (s.outCount.toNat + (rawLength.toNat + 1))
        inPtr := BitVec.ofNat 32 (s.tokenStart + 2)
        cmd := s.groupByte, bitIdx := s.bitIdx + 1#3 }
      ∧ (∀ i, i < rawLength.toNat + 1 →
          Memory.get m (s.writeCursor + i)
            = some (s.outByte (s.writeCursor - (position.toNat + 1) + i % (position.toNat + 1))))
      ∧ ∀ a, a < s.writeCursor ∨ s.writeCursor + (rawLength.toNat + 1) ≤ a →
          Memory.get m a = Memory.get s.outMem a

/-- 43_match.md R124 and the source's words in R13: a LIT or MATCH that completes makes of the output what the token expands to, a match
byte by byte, each a copy of the byte `position + 1` before the end. -/
def Obligations.TokensExtendOutputByteByByte : Prop :=
  ∀ (s t : State) (i : Instr), (∃ d, i = .lit d) ∨ (∃ p r, i = .backref p r) →
    s.status = .busy .decode → exec i s = .next t → t.status ≠ .error →
    expandToken s.output i = some t.output

/-- 44_sentinel.md R135 and R137: END, its errors in their order, and its effect; the position field changes nothing (R139). -/
def Obligations.SentinelStep : Prop :=
  ∀ (s : State) (position : BitVec 12),
    (s.inLen.toNat < s.tokenStart + 2 →
      exec (.sentinel position) s = .next { s with status := .error, code := 3#4 })
    ∧ (s.tokenStart + 2 ≤ s.inLen.toNat → s.outCount ≠ s.size →
      exec (.sentinel position) s = .next { s with status := .error, code := 6#4 })
    ∧ (s.tokenStart + 2 ≤ s.inLen.toNat → s.outCount = s.size →
      exec (.sentinel position) s = .next { s with
        inPtr := BitVec.ofNat 32 (s.tokenStart + 2)
        cmd := s.groupByte, bitIdx := s.bitIdx + 1#3
        status := .done, code := 0#4 })

/-- 44_sentinel.md R138: from a state that meets the invariant, SizeMismatch means fewer bytes than the declared size. -/
def Obligations.SizeMismatchMeansTooFewBytes : Prop :=
  ∀ (s t : State) (position : BitVec 12), StateInv s → s.status = .busy .decode →
    exec (.sentinel position) s = .next t → t.status = .error → t.code = 6#4 →
    s.outCount.toNat < s.size.toNat

/-- 41_dispatch.md R102: the decode step of a command byte is the decode step of the token after it, and it fails as a whole when bytes are missing. -/
def Obligations.CommandByteStepIsItsTokensStep : Prop :=
  ∀ (s : State) (c : Byte), s.bitIdx = 0#3 →
    (s.inLen.toNat ≤ s.inPtr.toNat →
      exec (.cmd c) s = .next { s with status := .error, code := 3#4 })
    ∧ (s.inPtr.toNat < s.inLen.toNat → s.inByte s.inPtr.toNat = c →
      ∀ sel, sel = Select.token (c.getLsbD 0) →
        (∀ i rest, decodeStream sel (s.inBytes sel.length (s.inPtr.toNat + 1)) = .ok (i, rest) →
          exec (.cmd c) s = exec i s)
        ∧ (∀ r, decodeStream sel (s.inBytes sel.length (s.inPtr.toNat + 1)) = .error r →
          exec (.cmd c) s = .next { s with status := .error, code := 3#4 }))

/-- 41_dispatch.md R102: a command byte completes with each kind of token after it. -/
def Obligations.CommandByteCompletes : Prop :=
  ∀ (s : State) (c : Byte), s.bitIdx = 0#3 →
    (c.getLsbD 0 = false → s.inPtr.toNat + 2 ≤ s.inLen.toNat →
      s.outCount.toNat < s.size.toNat → s.size.toNat ≤ s.place.outCap →
      exec (.cmd c) s = .next { s with
        outMem := Memory.set s.outMem s.writeCursor (s.inByte (s.inPtr.toNat + 1))
        outCount := s.outCount + 1#32, inPtr := s.inPtr + 2#32, cmd := c, bitIdx := 1#3 })
    ∧ (c.getLsbD 0 = true → s.inPtr.toNat + 3 ≤ s.inLen.toNat →
      rawLengthOf (s.inByte (s.inPtr.toNat + 2)) = 0#4 → s.outCount = s.size →
      exec (.cmd c) s = .next { s with
        inPtr := s.inPtr + 3#32, cmd := c, bitIdx := 1#3, status := .done, code := 0#4 })
    ∧ (c.getLsbD 0 = true → s.inPtr.toNat + 3 ≤ s.inLen.toNat →
      ∀ position rawLength,
        position = positionOf (s.inByte (s.inPtr.toNat + 1)) (s.inByte (s.inPtr.toNat + 2)) →
        rawLength = rawLengthOf (s.inByte (s.inPtr.toNat + 2)) → rawLength ≠ 0#4 →
        position.toNat < s.outCount.toNat →
        s.outCount.toNat + (rawLength.toNat + 1) ≤ s.size.toNat → s.size.toNat ≤ s.place.outCap →
        ∃ m : Memory,
          exec (.cmd c) s = .next { s with
            outMem := m, outCount := BitVec.ofNat 32 (s.outCount.toNat + (rawLength.toNat + 1))
            inPtr := s.inPtr + 3#32, cmd := c, bitIdx := 1#3 }
          ∧ (∀ i, i < rawLength.toNat + 1 →
              Memory.get m (s.writeCursor + i)
                = some (s.outByte (s.writeCursor - (position.toNat + 1) + i % (position.toNat + 1))))
          ∧ ∀ a, a < s.writeCursor ∨ s.writeCursor + (rawLength.toNat + 1) ≤ a →
              Memory.get m a = Memory.get s.outMem a)

/-! ## Steps -/

/-- A step runs the decoded instruction: the engine's turn is exec of the item fetched (41_dispatch.md R101), of INSPECT while it executes
(40_header.md R90), and TruncatedInput where the item's bytes are missing (41_dispatch.md R103). -/
def Obligations.StepRunsDecodedItem : Prop :=
  ∀ s : State, s.engineNext = true →
    (s.status = .busy .inspect → step s = exec .inspect s.turnTaken)
    ∧ (s.status = .busy .decode →
      (∀ i, fetchItem s = .ok i → step s = exec i s.turnTaken)
      ∧ (∀ r, fetchItem s = .error r →
          step s = .next { s.turnTaken with status := .error, code := 3#4 }))

/-- 30_encoding.md R80: where the bytes at IN_PTR are the encoding of a well-formed item that the selector calls for, the engine's turn is exec of that item. -/
def Obligations.StepRunsItemAtInPtr : Prop :=
  ∀ (s : State) (i : Instr) (bytes : List Byte), s.engineNext = true → s.status = .busy .decode →
    i.wellFormed = true → encode i = .stream s.select bytes →
    s.inPtr.toNat + bytes.length ≤ s.inLen.toNat →
    (∀ k, k < bytes.length → some (s.inByte (s.inPtr.toNat + k)) = bytes[k]?) →
    step s = exec i s.turnTaken

/-- The placing of an instruction (log entry 6, the model's own): the very next step runs the instruction the decoder reads from the table word. -/
def Obligations.NextStepRunsPlacedWord : Prop :=
  ∀ (s : State) (nbits w : Nat) (i : Instr), decodeTableWord nbits w = some i →
    step (s.withFetchWord nbits w) = exec i (s.withFetchWord nbits w).turnTaken

/-- 41_dispatch.md R104 and 10_state.md R24: a decode step that does not fail consumes one flag and the bytes of one token, after a command byte when BIT_IDX was 0. -/
def Obligations.DecodeStepConsumesOneFlag : Prop :=
  ∀ s t : State, s.engineNext = true → s.status = .busy .decode → step s = .next t → t.status ≠ .error →
    t.bitIdx.toNat = (s.bitIdx.toNat + 1) % 8
    ∧ t.cmd = (if s.bitIdx = 0#3 then s.inByte s.inPtr.toNat else s.cmd)
    ∧ t.inPtr.toNat = s.inPtr.toNat + (if s.bitIdx = 0#3 then 1 else 0)
        + (if t.cmd.getLsbD s.bitIdx.toNat then 2 else 1)
    ∧ t.inPtr.toNat ≤ s.inLen.toNat

/-- 60_exceptions.md R150: an engine step that ends in ERROR changes STATE and CODE and nothing else. -/
def Obligations.ErrorsArePrecise : Prop :=
  ∀ s t : State, s.engineNext = true → s.busy = true → step s = .next t → t.status = .error →
    ∃ e : ErrorKind, t = { s.turnTaken with status := .error, code := e.code }

/-- 20_memory.md R56, R57, R59 and 43_match.md R128: a decode step writes output bytes from the old OUT_COUNT up to the new one, none at or
above SIZE, and no input byte. -/
def Obligations.DecodeStepWritesOnlyNewOutput : Prop :=
  ∀ s t : State, s.engineNext = true → s.status = .busy .decode → s.outCount.toNat ≤ s.size.toNat →
    step s = .next t →
    s.outCount.toNat ≤ t.outCount.toNat ∧ t.outCount.toNat ≤ s.size.toNat
    ∧ (∀ a, a < s.outCount.toNat ∨ t.outCount.toNat ≤ a → t.outByte a = s.outByte a)
    ∧ t.inMem = s.inMem ∧ t.inLen = s.inLen ∧ t.size = s.size ∧ t.place = s.place
    ∧ t.unseen = s.unseen ∧ t.readData = s.readData ∧ t.outGen = s.outGen ∧ t.draws = s.draws

/-- The frame of every instruction: what it leaves unchanged when it gives a next state. -/
def Obligations.InstructionFrames : Prop :=
  ∀ (i : Instr) (s t : State), exec i s = .next t →
    (t.inMem = s.inMem ∧ t.inLen = s.inLen ∧ t.place = s.place ∧ t.turns = s.turns
      ∧ t.readData = s.readData ∧ t.outGen = s.outGen ∧ t.draws = s.draws)
    ∧ (i ≠ .inspect → t.size = s.size)
    ∧ (i ≠ .inspect → i ≠ .decode → t.unseen = s.unseen)
    ∧ (i = .nop ∨ i = .rsvd ∨ i = .inspect ∨ i = .decode → ∀ a, t.outByte a = s.outByte a)
    ∧ (i = .nop ∨ i = .rsvd ∨ i = .inspect →
        t.outCount = s.outCount ∧ t.inPtr = s.inPtr ∧ t.cmd = s.cmd ∧ t.bitIdx = s.bitIdx)
    ∧ (i = .nop ∨ i = .rsvd → t.status = s.status ∧ t.code = s.code)
    ∧ ((∃ d, i = .lit d) ∨ (∃ p, i = .sentinel p) ∨ (∃ p r, i = .backref p r) →
        ∀ a, a < s.writeCursor ∨ s.writeCursor + storeLength i ≤ a → t.outByte a = s.outByte a)
    ∧ (∀ c, i = .cmd c →
        ∀ a, a < s.writeCursor ∨ t.writeCursor ≤ a → t.outByte a = s.outByte a)
    ∧ ((∃ d, i = .lit d) ∨ (∃ p r, i = .backref p r) → t.status ≠ .error →
        t.status = s.status ∧ t.code = s.code)

/-! ## Invariants, safety, termination -/

/-- 10_state.md R44 with R33 and the canonical form of the memories: every step keeps the invariant. -/
def Obligations.EveryStepKeepsInv : Prop :=
  ∀ s t : State, StateInv s → step s = .next t → StateInv t

/-- The invariant holds right after reset. -/
def Obligations.ResetMeetsInv : Prop := StateInv State.reset

/-- 20_memory.md R57: from a state that meets the invariant the engine's turn never leaves a memory: it always gives a next state. -/
def Obligations.EngineNeverStops : Prop :=
  ∀ s : State, StateInv s → s.engineNext = true → ∃ t, step s = .next t

/-- 41_dispatch.md R107: a decode step that does not end the command advances IN_PTR, by 1 or 2 for a literal and by 2 or 3 for a match, never past IN_LEN; so
DECODE always ends, within `max(IN_LEN - IN_PTR, 0) + 1` engine steps from any point of it (from its start, `max(IN_LEN - 8, 0) + 1`): with no host turn
listed by a run of that many steps, and with any host turns among them but the reset input (R174's polling, say) no later than the engine's turn of that
number. That the turns are a list is log entry 6. -/
def Obligations.DecodeAlwaysEnds : Prop :=
  (∀ s t : State, s.engineNext = true → s.status = .busy .decode → step s = .next t → t.busy = true →
    t.inPtr.toNat = s.inPtr.toNat + (if s.bitIdx = 0#3 then 1 else 0)
        + (if t.cmd.getLsbD s.bitIdx.toNat then 2 else 1)
    ∧ s.inPtr.toNat < t.inPtr.toNat ∧ t.inPtr.toNat ≤ s.inLen.toNat)
  ∧ (∀ s : State, StateInv s → s.status = .busy .decode → s.turns = [] →
    ∃ n t, n ≤ (s.inLen.toNat - s.inPtr.toNat) + 1 ∧ core.run n s = .next t
      ∧ (t.status = .done ∨ t.status = .error))
  ∧ ∀ (s t : State) (n : Nat), StateInv s → s.status = .busy .decode → .host .reset ∉ s.turns.take n →
    core.run n s = .next t → (s.inLen.toNat - s.inPtr.toNat) + 1 ≤ engineTurns n s.turns →
    ∃ m u, m ≤ n ∧ core.run m s = .next u ∧ (u.status = .done ∨ u.status = .error)

/-- 10_state.md R36 and 20_memory.md R59: when a DECODE ends in DONE, OUT_COUNT is SIZE and every output byte below SIZE has been written. -/
def Obligations.DoneMeansWholeOutputWritten : Prop :=
  ∀ s t : State, StateInv s → s.engineNext = true → s.status = .busy .decode → step s = .next t → t.status = .done →
    t.outCount = t.size ∧ t.size = s.size ∧ t.code = 0#4
    ∧ ∀ a, a < t.size.toNat → (Memory.get t.outMem a).isSome = true

/-- 41_dispatch.md R109: a decode step depends on IN[8 .. IN_LEN-1], IN_LEN, SIZE and the output below OUT_COUNT, and on nothing else of the memories: two
states that meet the invariant and agree there, and in the decoder's registers, give the same registers and the same output. -/
def Obligations.DecodeIgnoresHeaderAndUnwrittenOutput : Prop :=
  ∀ s t s' : State, StateInv s → StateInv t → s.engineNext = true → t.engineNext = true →
    s.status = .busy .decode → t.status = .busy .decode →
    t.code = s.code → t.inLen = s.inLen → t.size = s.size → t.outCount = s.outCount → t.inPtr = s.inPtr →
    t.cmd = s.cmd → t.bitIdx = s.bitIdx →
    (∀ a, 8 ≤ a → a < s.inLen.toNat → t.inByte a = s.inByte a) →
    (∀ a, a < s.outCount.toNat → t.outByte a = s.outByte a) →
    step s = .next s' →
    ∃ t', step t = .next t' ∧ t'.status = s'.status ∧ t'.code = s'.code ∧ t'.outCount = s'.outCount
      ∧ t'.inPtr = s'.inPtr ∧ t'.cmd = s'.cmd ∧ t'.bitIdx = s'.bitIdx
      ∧ ∀ a, a < s'.outCount.toNat → t'.outByte a = s'.outByte a

/-- 60_exceptions.md R154: STATE and CODE stay until an INSPECT or DECODE is written to CTRL or reset occurs, whatever else the host does (the first clause holds
while BUSY too) and through the engine's own turns. -/
def Obligations.CompletionStatusIsSticky : Prop :=
  (∀ (s t : State) (act : HostAct) (rest : List Turn), s.turns = .host act :: rest → act ≠ .reset →
    (∀ w, act = .regWrite 32 0x00#32 w → w.extractLsb' 0 2 = 0b00#2 ∨ w.extractLsb' 0 2 = 0b11#2) →
    step s = .next t → t.status = s.status ∧ t.code = s.code)
  ∧ ∀ s t : State, s.engineNext = true → s.busy = false → step s = .next t →
    t.status = s.status ∧ t.code = s.code

/-- 10_state.md R21: the placement is a parameter, which no step changes but for the output memory that the host provides (log entry 10). -/
def Obligations.PlacementIsAParameter : Prop :=
  ∀ s t : State, step s = .next t →
    t.place.regBase = s.place.regBase ∧ t.place.inBase = s.place.inBase ∧ t.place.others = s.place.others
    ∧ ((∀ base cap, s.turns.head? ≠ some (.host (.provideOut base cap))) → t.place = s.place)

/-- 60_exceptions.md R146: the CODE of each error kind. -/
def Obligations.ErrorCodesOfTheKinds : Prop :=
  ErrorKind.notCompressed.code = 1#4 ∧ ErrorKind.truncatedHeader.code = 2#4
  ∧ ErrorKind.truncatedInput.code = 3#4 ∧ ErrorKind.invalidBackReference.code = 4#4
  ∧ ErrorKind.outputOverflow.code = 5#4 ∧ ErrorKind.sizeMismatch.code = 6#4

/-! ## Encodings -/

/-- 30_encoding.md R72 to R77: decoding an encoded well-formed instruction gives it back, with every operand at every value, and leaves the bytes after it. -/
def Obligations.DecodeOfEncode : Prop :=
  ∀ i : Instr, i.wellFormed = true →
    (∀ sel bytes rest, encode i = .stream sel bytes → decodeStream sel (bytes ++ rest) = .ok (i, rest))
    ∧ (∀ w, encode i = .ctrl w → decodeCtrl w = i)

/-- 30_encoding.md R82: each item has one spelling: what decodes is well-formed and its encoding is the bytes it was decoded from, under the same selector. -/
def Obligations.EncodeOfDecode : Prop :=
  ∀ (sel : Select) (bytes rest : List Byte) (i : Instr), decodeStream sel bytes = .ok (i, rest) →
    i.wellFormed = true ∧ ∃ used, encode i = .stream sel used ∧ bytes = used ++ rest

/-- 30_encoding.md R82: no token is illegal: every byte list long enough decodes, and only a short one is rejected. -/
def Obligations.EveryLongEnoughStreamDecodes : Prop :=
  ∀ (sel : Select) (bytes : List Byte),
    (sel.length ≤ bytes.length → ∃ i, decodeStream sel bytes = .ok (i, bytes.drop sel.length))
    ∧ (bytes.length < sel.length → decodeStream sel bytes = .error .missingBytes)

/-- 30_encoding.md R75: operand assembly. -/
def Obligations.OperandAssembly : Prop :=
  ∀ b0 b1 : Byte,
    positionOf b0 b1 = (b0.setWidth 12 <<< 4) ||| (b1 >>> 4).setWidth 12
    ∧ rawLengthOf b1 = (b1 &&& 0x0F#8).setWidth 4
    ∧ (positionOf b0 b1).toNat = b0.toNat * 16 + b1.toNat / 16
    ∧ (rawLengthOf b1).toNat = b1.toNat % 16
    ∧ matchLength (rawLengthOf b1) = b1.toNat % 16 + 1
    ∧ matchDistance (positionOf b0 b1) = b0.toNat * 16 + b1.toNat / 16 + 1

/-- 30_encoding.md R79: a token word that satisfies the SENTINEL test is a SENTINEL and never a MATCH; every other flag-1 word is a MATCH. -/
def Obligations.SentinelTestComesBeforeMatch : Prop :=
  ∀ tw : Nat, tw < 2 ^ 17 →
    (tw &&& 0x1000F = 0x10000 → ∃ p, decodeTableWord 24 tw = some (.sentinel p))
    ∧ (tw &&& 0x1000F ≠ 0x10000 → tw &&& 0x10000 = 0x10000 →
        ∃ p r, decodeTableWord 24 tw = some (.backref p r) ∧ r ≠ 0#4)

/-- 30_encoding.md R78: the table word of a well-formed instruction decodes to it. -/
def Obligations.TableWordsRoundTrip : Prop :=
  ∀ i : Instr, i.wellFormed = true → decodeTableWord (encodeTableWord i).1 (encodeTableWord i).2 = some i

/-- Words written out from 30_encoding.md R72 to R77 decode to what they stand for. -/
def Obligations.WrittenOutWordsDecode : Prop :=
  decodeTableWord 8 0b00110100 = some (.cmd 0x34#8)
  ∧ decodeTableWord 16 0b001000001 = some (.lit 0x41#8)
  ∧ decodeTableWord 24 0b10000000000000100 = some (.backref 0#12 4#4)
  ∧ decodeTableWord 24 0b11111111111110001 = some (.backref 4095#12 1#4)
  ∧ decodeTableWord 24 0b11010101111000000 = some (.sentinel 0xABC#12)
  ∧ decodeTableWord 32 0 = some .nop ∧ decodeTableWord 32 1 = some .inspect
  ∧ decodeTableWord 32 2 = some .decode ∧ decodeTableWord 32 0xFFFFFFFF = some .rsvd

/-! ## The assembler notation, and whole containers -/

/-- 30_encoding.md R85, R86: MATCH, REP and COPY assemble exactly in their ranges, to the bytes R85 gives, which decode to a match of that position and length. -/
def Obligations.AssembledMatchDecodes : Prop :=
  ∀ p n : Nat,
    (p ≤ 4095 → 2 ≤ n → n ≤ 16 →
      ∃ b0 b1, assembleItem (.mtch p n) = some [b0, b1]
        ∧ b0.toNat = p / 16 ∧ b1.toNat = (p % 16) * 16 + (n - 1)
        ∧ assembleItem (.copy (p + 1) n) = some [b0, b1]
        ∧ (p = 0 → assembleItem (.rep n) = some [b0, b1])
        ∧ ∃ position rawLength, decodeStream (.token true) [b0, b1] = .ok (.backref position rawLength, [])
          ∧ matchDistance position = p + 1 ∧ matchLength rawLength = n)
    ∧ (4095 < p ∨ n < 2 ∨ 16 < n → assembleItem (.mtch p n) = none)
    ∧ (n < 2 ∨ 16 < n → assembleItem (.rep n) = none)
    ∧ ∀ d, d = 0 ∨ 4096 < d ∨ n < 2 ∨ 16 < n → assembleItem (.copy d n) = none

/-- 30_encoding.md R86: the command byte that AUTO places before a run has bit `i` equal to 1 exactly when item `i` of the run is MATCH or END, and 0 beyond the run. -/
def Obligations.AutoCommandByteFlags : Prop :=
  ∀ (run : List Instr) (k : Nat), run.length ≤ 8 → k < 8 →
    (commandByte run).getLsbD k
      = (match run[k]? with
        | some (.backref _ _) => true
        | some (.sentinel _) => true
        | _ => false)

/-- The source's round trip (95_test_vectors.md L1-7), for every compressor written to 30_encoding.md: where a list of literals and matches expands to some
bytes, a DECODE of the container that AUTO grouping makes of that list and a sentinel ends in DONE with exactly those bytes, one step a token. -/
def Obligations.AssembledContainerDecodesToItsExpansion : Prop :=
  ∀ (tokens : List Instr) (position : BitVec 12) (out : List Byte) (container : List Byte) (s : State),
    (∀ t ∈ tokens, t.wellFormed = true) → expand [] tokens = some out →
    container = assembleContainer s.size (tokens ++ [.sentinel position]) →
    s.status = .busy .decode → s.turns = [] →
    s.inPtr = 8#32 → s.outCount = 0#32 → s.bitIdx = 0#3 →
    s.size.toNat = out.length → out.length ≤ s.place.outCap →
    s.inLen.toNat = container.length →
    (∀ k, k < container.length → some (s.inByte k) = container[k]?) →
    ∃ t, core.run (tokens.length + 1) s = .next t ∧ t.status = .done ∧ t.code = 0#4
      ∧ t.output = out ∧ t.outCount = s.size ∧ t.inPtr = s.inLen
end

