-- ==== Sys2Proof/Laws/Memory.lean ====
section
/-! SUPPORT. What the memory operations do: read after write, and the canonical form they keep. -/

namespace Sys2Proof.Machine

@[simp] theorem Memory.get_nil (a : Nat) : Memory.get [] a = none := rfl

theorem Memory.get_cons (b : Nat) (w : Byte) (m : Memory) (a : Nat) :
    Memory.get ((b, w) :: m) a = if a = b then some w else Memory.get m a := rfl

@[simp] theorem Memory.get_set_same (m : Memory) (a : Nat) (v : Byte) :
    Memory.get (Memory.set m a v) a = some v := by
  induction m with
  | nil => simp [Memory.set, Memory.get]
  | cons x m ih =>
    obtain ⟨b, w⟩ := x
    simp only [Memory.set]
    split
    · simp [Memory.get]
    · split
      · simp [Memory.get]
      · rename_i _ h
        simp [Memory.get, h, ih]

theorem Memory.get_set_other (m : Memory) {a b : Nat} (v : Byte) (h : b ≠ a) :
    Memory.get (Memory.set m a v) b = Memory.get m b := by
  induction m with
  | nil => simp [Memory.set, Memory.get, h]
  | cons x m ih =>
    obtain ⟨c, w⟩ := x
    simp only [Memory.set]
    split
    · simp [Memory.get, h]
    · split
      · rename_i _ hc
        subst hc
        simp [Memory.get, h]
      · simp [Memory.get, ih]

theorem Memory.get_set (m : Memory) (a b : Nat) (v : Byte) :
    Memory.get (Memory.set m a v) b = if b = a then some v else Memory.get m b := by
  by_cases h : b = a
  · subst h
    simp
  · simp [h, Memory.get_set_other]

/-- Every entry after a write is the written one or an old one. -/
theorem Memory.mem_set {m : Memory} {a : Nat} {v : Byte} {x : Host.Cell} (h : x ∈ Memory.set m a v) :
    x = (a, v) ∨ x ∈ m := by
  induction m with
  | nil => simpa [Memory.set] using h
  | cons y m ih =>
    obtain ⟨c, w⟩ := y
    simp only [Memory.set] at h
    split at h
    · simpa using h
    · split at h
      · rename_i _ hc
        rcases List.mem_cons.mp h with h | h
        · exact .inl h
        · exact .inr (List.mem_cons_of_mem _ h)
      · rcases List.mem_cons.mp h with h | h
        · exact .inr (h ▸ List.mem_cons_self)
        · exact (ih h).imp_right (List.mem_cons_of_mem _)

/-- A write keeps the canonical form. -/
theorem Memory.set_wf {m : Memory} (h : Memory.wf m) (a : Nat) (v : Byte) : Memory.wf (Memory.set m a v) := by
  induction m with
  | nil => simp [Memory.set, Memory.wf]
  | cons y m ih =>
    obtain ⟨c, w⟩ := y
    have hc := List.pairwise_cons.mp h
    simp only [Memory.set]
    split
    · rename_i hac
      refine List.pairwise_cons.mpr ⟨?_, h⟩
      intro x hx
      rcases List.mem_cons.mp hx with rfl | hx
      · exact hac
      · exact Nat.lt_trans hac (hc.1 x hx)
    · split
      · rename_i _ hac
        subst hac
        exact List.pairwise_cons.mpr ⟨fun x hx => hc.1 x hx, hc.2⟩
      · rename_i h1 h2
        refine List.pairwise_cons.mpr ⟨?_, ih hc.2⟩
        intro x hx
        rcases Memory.mem_set hx with rfl | hx
        · show c < a
          omega
        · exact hc.1 x hx

/-- A write below a bound keeps every offset below it. -/
theorem Memory.set_below {m : Memory} {n : Nat} (h : ∀ x ∈ m, x.1 < n) {a : Nat} (ha : a < n) (v : Byte) :
    ∀ x ∈ Memory.set m a v, x.1 < n := by
  intro x hx
  rcases Memory.mem_set hx with rfl | hx
  · exact ha
  · exact h x hx

/-- No byte is listed below the first entry of a memory in canonical form. -/
theorem Memory.get_below_head {b : Nat} {w : Byte} {m : Memory} (h : Memory.wf ((b, w) :: m)) {a : Nat} (ha : a < b) :
    Memory.get ((b, w) :: m) a = none := by
  have hc := List.pairwise_cons.mp h
  have key : ∀ l : Memory, (∀ x ∈ l, a < x.1) → Memory.get l a = none := by
    intro l
    induction l with
    | nil => simp
    | cons y l ih =>
      intro hl
      have h1 := hl y List.mem_cons_self
      obtain ⟨c, u⟩ := y
      have hne : a ≠ c := by
        have : a < c := h1
        omega
      rw [Memory.get_cons, if_neg hne]
      exact ih (fun x hx => hl x (List.mem_cons_of_mem _ hx))
  refine key _ ?_
  intro x hx
  rcases List.mem_cons.mp hx with rfl | hx
  · exact ha
  · exact Nat.lt_trans ha (hc.1 x hx)

/-- Memories in canonical form that read alike are equal data. -/
theorem Memory.wf_ext : ∀ {m n : Memory}, Memory.wf m → Memory.wf n →
    (∀ a, Memory.get m a = Memory.get n a) → m = n
  | [], [], _, _, _ => rfl
  | [], (b, w) :: n, _, _, h => by simpa [Memory.get] using h b
  | (b, w) :: m, [], _, _, h => by simpa [Memory.get] using h b
  | (b, w) :: m, (c, u) :: n, hm, hn, h => by
    have hbc : b = c := by
      rcases Nat.lt_trichotomy b c with hlt | heq | hgt
      · have h1 := h b
        rw [Memory.get_below_head hn hlt] at h1
        simp [Memory.get] at h1
      · exact heq
      · have h1 := h c
        rw [Memory.get_below_head hm hgt] at h1
        simp [Memory.get] at h1
    subst hbc
    have hwu : w = u := by simpa [Memory.get] using h b
    subst hwu
    have hm' := List.pairwise_cons.mp hm
    have hn' := List.pairwise_cons.mp hn
    have hrest : ∀ a, Memory.get m a = Memory.get n a := by
      intro a
      by_cases hab : a = b
      · subst hab
        have none_of : ∀ l : Memory, (∀ x ∈ l, a < x.1) → Memory.get l a = none := by
          intro l
          induction l with
          | nil => simp
          | cons y l ih =>
            obtain ⟨c, u⟩ := y
            intro hl
            have h1 : a < c := hl (c, u) List.mem_cons_self
            rw [Memory.get_cons, if_neg (by omega)]
            exact ih (fun x hx => hl x (List.mem_cons_of_mem _ hx))
        rw [none_of m hm'.1, none_of n hn'.1]
      · simpa [Memory.get, hab] using h a
    rw [Memory.wf_ext hm'.2 hn'.2 hrest]

end Sys2Proof.Machine
end

