-- ==== Sys2Proof/Laws/State.lean ====
section
/-! SUPPORT. For each update of State, what every field is afterwards. -/

namespace Sys2Proof.Machine

variable (s : State)

@[simp] theorem State.storeIn_status (a : Nat) (v : Byte) : (s.storeIn a v).status = s.status := rfl
@[simp] theorem State.storeIn_code (a : Nat) (v : Byte) : (s.storeIn a v).code = s.code := rfl
@[simp] theorem State.storeIn_inLen (a : Nat) (v : Byte) : (s.storeIn a v).inLen = s.inLen := rfl
@[simp] theorem State.storeIn_size (a : Nat) (v : Byte) : (s.storeIn a v).size = s.size := rfl
@[simp] theorem State.storeIn_outCount (a : Nat) (v : Byte) : (s.storeIn a v).outCount = s.outCount := rfl
@[simp] theorem State.storeIn_inPtr (a : Nat) (v : Byte) : (s.storeIn a v).inPtr = s.inPtr := rfl
@[simp] theorem State.storeIn_cmd (a : Nat) (v : Byte) : (s.storeIn a v).cmd = s.cmd := rfl
@[simp] theorem State.storeIn_bitIdx (a : Nat) (v : Byte) : (s.storeIn a v).bitIdx = s.bitIdx := rfl
@[simp] theorem State.storeIn_inMem (a : Nat) (v : Byte) : (s.storeIn a v).inMem = Memory.set s.inMem a v := rfl
@[simp] theorem State.storeIn_outMem (a : Nat) (v : Byte) : (s.storeIn a v).outMem = s.outMem := rfl
@[simp] theorem State.storeIn_place (a : Nat) (v : Byte) : (s.storeIn a v).place = s.place := rfl
@[simp] theorem State.storeIn_unseen (a : Nat) (v : Byte) : (s.storeIn a v).unseen = s.unseen := rfl
@[simp] theorem State.storeIn_turns (a : Nat) (v : Byte) : (s.storeIn a v).turns = s.turns := rfl
@[simp] theorem State.storeIn_readData (a : Nat) (v : Byte) : (s.storeIn a v).readData = s.readData := rfl
@[simp] theorem State.storeIn_outGen (a : Nat) (v : Byte) : (s.storeIn a v).outGen = s.outGen := rfl
@[simp] theorem State.storeIn_draws (a : Nat) (v : Byte) : (s.storeIn a v).draws = s.draws := rfl

@[simp] theorem State.storeOut_status (a : Nat) (v : Byte) : (s.storeOut a v).status = s.status := rfl
@[simp] theorem State.storeOut_code (a : Nat) (v : Byte) : (s.storeOut a v).code = s.code := rfl
@[simp] theorem State.storeOut_inLen (a : Nat) (v : Byte) : (s.storeOut a v).inLen = s.inLen := rfl
@[simp] theorem State.storeOut_size (a : Nat) (v : Byte) : (s.storeOut a v).size = s.size := rfl
@[simp] theorem State.storeOut_outCount (a : Nat) (v : Byte) : (s.storeOut a v).outCount = s.outCount := rfl
@[simp] theorem State.storeOut_inPtr (a : Nat) (v : Byte) : (s.storeOut a v).inPtr = s.inPtr := rfl
@[simp] theorem State.storeOut_cmd (a : Nat) (v : Byte) : (s.storeOut a v).cmd = s.cmd := rfl
@[simp] theorem State.storeOut_bitIdx (a : Nat) (v : Byte) : (s.storeOut a v).bitIdx = s.bitIdx := rfl
@[simp] theorem State.storeOut_inMem (a : Nat) (v : Byte) : (s.storeOut a v).inMem = s.inMem := rfl
@[simp] theorem State.storeOut_outMem (a : Nat) (v : Byte) : (s.storeOut a v).outMem = Memory.set s.outMem a v := rfl
@[simp] theorem State.storeOut_place (a : Nat) (v : Byte) : (s.storeOut a v).place = s.place := rfl
@[simp] theorem State.storeOut_unseen (a : Nat) (v : Byte) : (s.storeOut a v).unseen = s.unseen := rfl
@[simp] theorem State.storeOut_turns (a : Nat) (v : Byte) : (s.storeOut a v).turns = s.turns := rfl
@[simp] theorem State.storeOut_readData (a : Nat) (v : Byte) : (s.storeOut a v).readData = s.readData := rfl
@[simp] theorem State.storeOut_outGen (a : Nat) (v : Byte) : (s.storeOut a v).outGen = s.outGen := rfl
@[simp] theorem State.storeOut_draws (a : Nat) (v : Byte) : (s.storeOut a v).draws = s.draws := rfl

@[simp] theorem State.commit_status (p : Nat) (c : Byte) : (s.commit p c).status = s.status := rfl
@[simp] theorem State.commit_code (p : Nat) (c : Byte) : (s.commit p c).code = s.code := rfl
@[simp] theorem State.commit_inLen (p : Nat) (c : Byte) : (s.commit p c).inLen = s.inLen := rfl
@[simp] theorem State.commit_size (p : Nat) (c : Byte) : (s.commit p c).size = s.size := rfl
@[simp] theorem State.commit_outCount (p : Nat) (c : Byte) : (s.commit p c).outCount = s.outCount := rfl
@[simp] theorem State.commit_inPtr (p : Nat) (c : Byte) : (s.commit p c).inPtr = BitVec.ofNat 32 p := rfl
@[simp] theorem State.commit_cmd (p : Nat) (c : Byte) : (s.commit p c).cmd = c := rfl
@[simp] theorem State.commit_bitIdx (p : Nat) (c : Byte) : (s.commit p c).bitIdx = nextBitIdx s.bitIdx := rfl
@[simp] theorem State.commit_inMem (p : Nat) (c : Byte) : (s.commit p c).inMem = s.inMem := rfl
@[simp] theorem State.commit_outMem (p : Nat) (c : Byte) : (s.commit p c).outMem = s.outMem := rfl
@[simp] theorem State.commit_place (p : Nat) (c : Byte) : (s.commit p c).place = s.place := rfl
@[simp] theorem State.commit_unseen (p : Nat) (c : Byte) : (s.commit p c).unseen = s.unseen := rfl
@[simp] theorem State.commit_turns (p : Nat) (c : Byte) : (s.commit p c).turns = s.turns := rfl
@[simp] theorem State.commit_readData (p : Nat) (c : Byte) : (s.commit p c).readData = s.readData := rfl
@[simp] theorem State.commit_outGen (p : Nat) (c : Byte) : (s.commit p c).outGen = s.outGen := rfl
@[simp] theorem State.commit_draws (p : Nat) (c : Byte) : (s.commit p c).draws = s.draws := rfl

@[simp] theorem State.emitted_status (n : Nat) : (s.emitted n).status = s.status := rfl
@[simp] theorem State.emitted_code (n : Nat) : (s.emitted n).code = s.code := rfl
@[simp] theorem State.emitted_inLen (n : Nat) : (s.emitted n).inLen = s.inLen := rfl
@[simp] theorem State.emitted_size (n : Nat) : (s.emitted n).size = s.size := rfl
@[simp] theorem State.emitted_outCount (n : Nat) : (s.emitted n).outCount = BitVec.ofNat 32 (s.writeCursor + n) := rfl
@[simp] theorem State.emitted_inPtr (n : Nat) : (s.emitted n).inPtr = s.inPtr := rfl
@[simp] theorem State.emitted_cmd (n : Nat) : (s.emitted n).cmd = s.cmd := rfl
@[simp] theorem State.emitted_bitIdx (n : Nat) : (s.emitted n).bitIdx = s.bitIdx := rfl
@[simp] theorem State.emitted_inMem (n : Nat) : (s.emitted n).inMem = s.inMem := rfl
@[simp] theorem State.emitted_outMem (n : Nat) : (s.emitted n).outMem = s.outMem := rfl
@[simp] theorem State.emitted_place (n : Nat) : (s.emitted n).place = s.place := rfl
@[simp] theorem State.emitted_unseen (n : Nat) : (s.emitted n).unseen = s.unseen := rfl
@[simp] theorem State.emitted_turns (n : Nat) : (s.emitted n).turns = s.turns := rfl
@[simp] theorem State.emitted_readData (n : Nat) : (s.emitted n).readData = s.readData := rfl
@[simp] theorem State.emitted_outGen (n : Nat) : (s.emitted n).outGen = s.outGen := rfl
@[simp] theorem State.emitted_draws (n : Nat) : (s.emitted n).draws = s.draws := rfl

@[simp] theorem State.raised_status (e : ErrorKind) : (s.raised e).status = .error := rfl
@[simp] theorem State.raised_code (e : ErrorKind) : (s.raised e).code = e.code := rfl
@[simp] theorem State.raised_inLen (e : ErrorKind) : (s.raised e).inLen = s.inLen := rfl
@[simp] theorem State.raised_size (e : ErrorKind) : (s.raised e).size = s.size := rfl
@[simp] theorem State.raised_outCount (e : ErrorKind) : (s.raised e).outCount = s.outCount := rfl
@[simp] theorem State.raised_inPtr (e : ErrorKind) : (s.raised e).inPtr = s.inPtr := rfl
@[simp] theorem State.raised_cmd (e : ErrorKind) : (s.raised e).cmd = s.cmd := rfl
@[simp] theorem State.raised_bitIdx (e : ErrorKind) : (s.raised e).bitIdx = s.bitIdx := rfl
@[simp] theorem State.raised_inMem (e : ErrorKind) : (s.raised e).inMem = s.inMem := rfl
@[simp] theorem State.raised_outMem (e : ErrorKind) : (s.raised e).outMem = s.outMem := rfl
@[simp] theorem State.raised_place (e : ErrorKind) : (s.raised e).place = s.place := rfl
@[simp] theorem State.raised_unseen (e : ErrorKind) : (s.raised e).unseen = s.unseen := rfl
@[simp] theorem State.raised_turns (e : ErrorKind) : (s.raised e).turns = s.turns := rfl
@[simp] theorem State.raised_readData (e : ErrorKind) : (s.raised e).readData = s.readData := rfl
@[simp] theorem State.raised_outGen (e : ErrorKind) : (s.raised e).outGen = s.outGen := rfl
@[simp] theorem State.raised_draws (e : ErrorKind) : (s.raised e).draws = s.draws := rfl

@[simp] theorem State.finished_status : (s.finished).status = .done := rfl
@[simp] theorem State.finished_code : (s.finished).code = 0#4 := rfl
@[simp] theorem State.finished_inLen : (s.finished).inLen = s.inLen := rfl
@[simp] theorem State.finished_size : (s.finished).size = s.size := rfl
@[simp] theorem State.finished_outCount : (s.finished).outCount = s.outCount := rfl
@[simp] theorem State.finished_inPtr : (s.finished).inPtr = s.inPtr := rfl
@[simp] theorem State.finished_cmd : (s.finished).cmd = s.cmd := rfl
@[simp] theorem State.finished_bitIdx : (s.finished).bitIdx = s.bitIdx := rfl
@[simp] theorem State.finished_inMem : (s.finished).inMem = s.inMem := rfl
@[simp] theorem State.finished_outMem : (s.finished).outMem = s.outMem := rfl
@[simp] theorem State.finished_place : (s.finished).place = s.place := rfl
@[simp] theorem State.finished_unseen : (s.finished).unseen = s.unseen := rfl
@[simp] theorem State.finished_turns : (s.finished).turns = s.turns := rfl
@[simp] theorem State.finished_readData : (s.finished).readData = s.readData := rfl
@[simp] theorem State.finished_outGen : (s.finished).outGen = s.outGen := rfl
@[simp] theorem State.finished_draws : (s.finished).draws = s.draws := rfl

@[simp] theorem State.launched_status (c : Command) : (s.launched c).status = .busy c := rfl
@[simp] theorem State.launched_code (c : Command) : (s.launched c).code = 0#4 := rfl
@[simp] theorem State.launched_inLen (c : Command) : (s.launched c).inLen = s.inLen := rfl
@[simp] theorem State.launched_size (c : Command) : (s.launched c).size = s.size := rfl
@[simp] theorem State.launched_outCount (c : Command) : (s.launched c).outCount = s.outCount := rfl
@[simp] theorem State.launched_inPtr (c : Command) : (s.launched c).inPtr = s.inPtr := rfl
@[simp] theorem State.launched_cmd (c : Command) : (s.launched c).cmd = s.cmd := rfl
@[simp] theorem State.launched_bitIdx (c : Command) : (s.launched c).bitIdx = s.bitIdx := rfl
@[simp] theorem State.launched_inMem (c : Command) : (s.launched c).inMem = s.inMem := rfl
@[simp] theorem State.launched_outMem (c : Command) : (s.launched c).outMem = s.outMem := rfl
@[simp] theorem State.launched_place (c : Command) : (s.launched c).place = s.place := rfl
@[simp] theorem State.launched_unseen (c : Command) : (s.launched c).unseen = true := rfl
@[simp] theorem State.launched_turns (c : Command) : (s.launched c).turns = s.turns := rfl
@[simp] theorem State.launched_readData (c : Command) : (s.launched c).readData = s.readData := rfl
@[simp] theorem State.launched_outGen (c : Command) : (s.launched c).outGen = s.outGen := rfl
@[simp] theorem State.launched_draws (c : Command) : (s.launched c).draws = s.draws := rfl

@[simp] theorem State.decodeStarted_status : (s.decodeStarted).status = .busy .decode := rfl
@[simp] theorem State.decodeStarted_code : (s.decodeStarted).code = 0#4 := rfl
@[simp] theorem State.decodeStarted_inLen : (s.decodeStarted).inLen = s.inLen := rfl
@[simp] theorem State.decodeStarted_size : (s.decodeStarted).size = s.size := rfl
@[simp] theorem State.decodeStarted_outCount : (s.decodeStarted).outCount = 0#32 := rfl
@[simp] theorem State.decodeStarted_inPtr : (s.decodeStarted).inPtr = 8#32 := rfl
@[simp] theorem State.decodeStarted_cmd : (s.decodeStarted).cmd = 0#8 := rfl
@[simp] theorem State.decodeStarted_bitIdx : (s.decodeStarted).bitIdx = 0#3 := rfl
@[simp] theorem State.decodeStarted_inMem : (s.decodeStarted).inMem = s.inMem := rfl
@[simp] theorem State.decodeStarted_outMem : (s.decodeStarted).outMem = s.outMem := rfl
@[simp] theorem State.decodeStarted_place : (s.decodeStarted).place = s.place := rfl
@[simp] theorem State.decodeStarted_unseen : (s.decodeStarted).unseen = true := rfl
@[simp] theorem State.decodeStarted_turns : (s.decodeStarted).turns = s.turns := rfl
@[simp] theorem State.decodeStarted_readData : (s.decodeStarted).readData = s.readData := rfl
@[simp] theorem State.decodeStarted_outGen : (s.decodeStarted).outGen = s.outGen := rfl
@[simp] theorem State.decodeStarted_draws : (s.decodeStarted).draws = s.draws := rfl

@[simp] theorem State.assertReset_status : (s.assertReset).status = .idle := rfl
@[simp] theorem State.assertReset_code : (s.assertReset).code = 0#4 := rfl
@[simp] theorem State.assertReset_inLen : (s.assertReset).inLen = 0#32 := rfl
@[simp] theorem State.assertReset_size : (s.assertReset).size = 0#32 := rfl
@[simp] theorem State.assertReset_outCount : (s.assertReset).outCount = 0#32 := rfl
@[simp] theorem State.assertReset_inPtr : (s.assertReset).inPtr = 0#32 := rfl
@[simp] theorem State.assertReset_cmd : (s.assertReset).cmd = 0#8 := rfl
@[simp] theorem State.assertReset_bitIdx : (s.assertReset).bitIdx = 0#3 := rfl
@[simp] theorem State.assertReset_inMem : (s.assertReset).inMem = s.inMem := rfl
@[simp] theorem State.assertReset_outMem : (s.assertReset).outMem = s.outMem := rfl
@[simp] theorem State.assertReset_place : (s.assertReset).place = s.place := rfl
@[simp] theorem State.assertReset_unseen : (s.assertReset).unseen = s.unseen := rfl
@[simp] theorem State.assertReset_turns : (s.assertReset).turns = s.turns := rfl
@[simp] theorem State.assertReset_readData : (s.assertReset).readData = s.readData := rfl
@[simp] theorem State.assertReset_outGen : (s.assertReset).outGen = s.outGen := rfl
@[simp] theorem State.assertReset_draws : (s.assertReset).draws = s.draws := rfl

@[simp] theorem State.turnTaken_status : (s.turnTaken).status = s.status := rfl
@[simp] theorem State.turnTaken_code : (s.turnTaken).code = s.code := rfl
@[simp] theorem State.turnTaken_inLen : (s.turnTaken).inLen = s.inLen := rfl
@[simp] theorem State.turnTaken_size : (s.turnTaken).size = s.size := rfl
@[simp] theorem State.turnTaken_outCount : (s.turnTaken).outCount = s.outCount := rfl
@[simp] theorem State.turnTaken_inPtr : (s.turnTaken).inPtr = s.inPtr := rfl
@[simp] theorem State.turnTaken_cmd : (s.turnTaken).cmd = s.cmd := rfl
@[simp] theorem State.turnTaken_bitIdx : (s.turnTaken).bitIdx = s.bitIdx := rfl
@[simp] theorem State.turnTaken_inMem : (s.turnTaken).inMem = s.inMem := rfl
@[simp] theorem State.turnTaken_outMem : (s.turnTaken).outMem = s.outMem := rfl
@[simp] theorem State.turnTaken_place : (s.turnTaken).place = s.place := rfl
@[simp] theorem State.turnTaken_unseen : (s.turnTaken).unseen = s.unseen := rfl
@[simp] theorem State.turnTaken_turns : (s.turnTaken).turns = s.turns.tail := rfl
@[simp] theorem State.turnTaken_readData : (s.turnTaken).readData = s.readData := rfl
@[simp] theorem State.turnTaken_outGen : (s.turnTaken).outGen = s.outGen := rfl
@[simp] theorem State.turnTaken_draws : (s.turnTaken).draws = s.draws := rfl

@[simp] theorem State.turnTaken_busy : s.turnTaken.busy = s.busy := rfl
@[simp] theorem State.turnTaken_inByte (a : Nat) : s.turnTaken.inByte a = s.inByte a := rfl
@[simp] theorem State.turnTaken_outByte (a : Nat) : s.turnTaken.outByte a = s.outByte a := rfl
@[simp] theorem State.storeOut_inByte (a : Nat) (v : Byte) (b : Nat) : (s.storeOut a v).inByte b = s.inByte b := rfl
@[simp] theorem State.commit_outByte (p : Nat) (c : Byte) (a : Nat) : (s.commit p c).outByte a = s.outByte a := rfl
@[simp] theorem State.emitted_outByte (n a : Nat) : (s.emitted n).outByte a = s.outByte a := rfl
@[simp] theorem State.finished_outByte (a : Nat) : s.finished.outByte a = s.outByte a := rfl
@[simp] theorem State.raised_outByte (e : ErrorKind) (a : Nat) : (s.raised e).outByte a = s.outByte a := rfl

end Sys2Proof.Machine
end

