-- ==== Sys2Proof/Laws/Ops.lean ====
section
/-! SUPPORT. What each shared operation can do: the byte accesses, the bounds checks, the copy, and the token bodies. -/

namespace Sys2Proof.Machine

/-! ## Bytes -/

@[simp] theorem State.storeOut_outByte_same (s : State) (a : Nat) (v : Byte) : (s.storeOut a v).outByte a = v := by
  simp [State.outByte]

theorem State.storeOut_outByte_other (s : State) {a b : Nat} (v : Byte) (h : b ≠ a) :
    (s.storeOut a v).outByte b = s.outByte b := by
  simp [State.outByte, Memory.get_set_other _ _ h]

theorem State.storeOut_outByte (s : State) (a b : Nat) (v : Byte) :
    (s.storeOut a v).outByte b = if b = a then v else s.outByte b := by
  by_cases h : b = a
  · subst h
    simp
  · simp [h, State.storeOut_outByte_other]

@[simp] theorem State.outHas_eq_true (s : State) (a : Nat) : s.outHas a = true ↔ a < s.place.outCap := by
  simp [State.outHas]

@[simp] theorem State.need_eq_true (s : State) (p n : Nat) : s.need p n = true ↔ p + n ≤ s.inLen.toNat := by
  simp [State.need]

@[simp] theorem State.room_eq_true (s : State) (n : Nat) :
    s.room n = true ↔ s.outCount.toNat + n ≤ s.size.toNat := by
  simp [State.room]

@[simp] theorem State.need_eq_false (s : State) (p n : Nat) : s.need p n = false ↔ s.inLen.toNat < p + n := by
  simp [State.need]

@[simp] theorem State.room_eq_false (s : State) (n : Nat) :
    s.room n = false ↔ s.size.toNat < s.outCount.toNat + n := by
  simp [State.room]

@[simp] theorem State.outHas_eq_false (s : State) (a : Nat) : s.outHas a = false ↔ s.place.outCap ≤ a := by
  simp [State.outHas]

theorem matchLength_bounds (rawLength : BitVec 4) : 1 ≤ matchLength rawLength ∧ matchLength rawLength ≤ 16 := by
  have := rawLength.isLt
  simp only [matchLength]
  omega

theorem matchDistance_bounds (position : BitVec 12) :
    1 ≤ matchDistance position ∧ matchDistance position ≤ 4096 := by
  have := position.isLt
  simp only [matchDistance]
  omega

/-! ## The copy -/

/-- The copy changes the output memory and nothing else. -/
theorem copyBytes_frame {n src dst : Nat} {s t : State} (h : copyBytes n src dst s = .ok t) :
    t = { s with outMem := t.outMem } := by
  induction n generalizing src dst s with
  | zero =>
    simp only [copyBytes, Except.ok.injEq] at h
    subst h
    rfl
  | succ n ih =>
    simp only [copyBytes] at h
    split at h
    · cases h
    · split at h
      · cases h
      · exact (ih h).trans rfl

/-- The copy completes where the output memory has every byte it reads and writes. -/
theorem copyBytes_completes {n src dst : Nat} {s : State} (hs : src + n ≤ s.place.outCap)
    (hd : dst + n ≤ s.place.outCap) : ∃ t, copyBytes n src dst s = .ok t := by
  induction n generalizing src dst s with
  | zero => exact ⟨s, rfl⟩
  | succ n ih =>
    have h1 : s.outHas src = true := by
      rw [State.outHas_eq_true]
      omega
    have h2 : s.outHas dst = true := by
      rw [State.outHas_eq_true]
      omega
    simp only [copyBytes, h1, h2, Bool.not_true, Bool.false_eq_true, if_false]
    exact ih (by simp; omega) (by simp; omega)

/-- The copy leaves every byte outside its destination as it was. -/
theorem copyBytes_outside {n src dst : Nat} {s t : State} (h : copyBytes n src dst s = .ok t) {a : Nat}
    (ha : a < dst ∨ dst + n ≤ a) : Memory.get t.outMem a = Memory.get s.outMem a := by
  induction n generalizing src dst s with
  | zero =>
    simp only [copyBytes, Except.ok.injEq] at h
    rw [h]
  | succ n ih =>
    simp only [copyBytes] at h
    split at h
    · cases h
    · split at h
      · cases h
      · rw [ih h (by omega), State.storeOut_outMem, Memory.get_set_other]
        omega

/-- Every byte of the destination is written. -/
theorem copyBytes_writes {n src dst : Nat} {s t : State} (h : copyBytes n src dst s = .ok t) {a : Nat}
    (h1 : dst ≤ a) (h2 : a < dst + n) : (Memory.get t.outMem a).isSome = true := by
  induction n generalizing src dst s with
  | zero => omega
  | succ n ih =>
    simp only [copyBytes] at h
    split at h
    · cases h
    · split at h
      · cases h
      · by_cases hd : a = dst
        · rw [copyBytes_outside h (by omega), hd, State.storeOut_outMem, Memory.get_set_same]
          rfl
        · exact ih h (by omega) (by omega)

/-- The copy keeps the canonical form of the output memory and its bound. -/
theorem copyBytes_form {n src dst : Nat} {s t : State} (h : copyBytes n src dst s = .ok t)
    (hw : Memory.wf s.outMem) (hb : ∀ x ∈ s.outMem, x.1 < s.place.outCap) :
    Memory.wf t.outMem ∧ ∀ x ∈ t.outMem, x.1 < s.place.outCap := by
  induction n generalizing src dst s with
  | zero =>
    simp only [copyBytes, Except.ok.injEq] at h
    subst h
    exact ⟨hw, hb⟩
  | succ n ih =>
    simp only [copyBytes] at h
    split at h
    · cases h
    · split at h
      · cases h
      · rename_i _ hd
        have hd' : dst < s.place.outCap := by simpa using hd
        exact ih (s := s.storeOut dst (s.outByte src)) h (Memory.set_wf hw _ _) (Memory.set_below hb hd' _)

/-! ## The token bodies: every way each can end -/

theorem litBody_next {fr : Frame} {d : Byte} {s t : State} (h : litBody fr d s = .next t) :
    (s.inLen.toNat < fr.p + 1 ∧ t = s.raised .truncatedInput)
    ∨ (fr.p + 1 ≤ s.inLen.toNat ∧ s.size.toNat < s.outCount.toNat + 1 ∧ t = s.raised .outputOverflow)
    ∨ (fr.p + 1 ≤ s.inLen.toNat ∧ s.outCount.toNat + 1 ≤ s.size.toNat ∧ s.writeCursor < s.place.outCap
        ∧ t = ((s.storeOut s.writeCursor d).emitted 1).commit (fr.p + 1) fr.c) := by
  simp only [litBody, raiseError] at h
  split at h
  · rename_i h1
    injection h with h
    exact .inl ⟨by simpa using h1, h.symm⟩
  · rename_i h1
    split at h
    · rename_i h2
      injection h with h
      exact .inr (.inl ⟨by simpa using h1, by simpa using h2, h.symm⟩)
    · rename_i h2
      split at h
      · cases h
      · rename_i h3
        injection h with h
        exact .inr (.inr ⟨by simpa using h1, by simpa using h2, by simpa using h3, h.symm⟩)

theorem endBody_next {fr : Frame} {s t : State} (h : endBody fr s = .next t) :
    (s.inLen.toNat < fr.p + 2 ∧ t = s.raised .truncatedInput)
    ∨ (fr.p + 2 ≤ s.inLen.toNat ∧ s.outCount ≠ s.size ∧ t = s.raised .sizeMismatch)
    ∨ (fr.p + 2 ≤ s.inLen.toNat ∧ s.outCount = s.size ∧ t = (s.commit (fr.p + 2) fr.c).finished) := by
  simp only [endBody, raiseError] at h
  split at h
  · rename_i h1
    injection h with h
    exact .inl ⟨by simpa using h1, h.symm⟩
  · rename_i h1
    split at h
    · rename_i h2
      injection h with h
      exact .inr (.inl ⟨by simpa using h1, h2, h.symm⟩)
    · rename_i h2
      injection h with h
      exact .inr (.inr ⟨by simpa using h1, by simpa using h2, h.symm⟩)

theorem matchBody_next {fr : Frame} {position : BitVec 12} {rawLength : BitVec 4} {s t : State}
    (h : matchBody fr position rawLength s = .next t) :
    (s.inLen.toNat < fr.p + 2 ∧ t = s.raised .truncatedInput)
    ∨ (fr.p + 2 ≤ s.inLen.toNat ∧ s.writeCursor < matchDistance position ∧ t = s.raised .invalidBackReference)
    ∨ (fr.p + 2 ≤ s.inLen.toNat ∧ matchDistance position ≤ s.writeCursor
        ∧ s.size.toNat < s.outCount.toNat + matchLength rawLength ∧ t = s.raised .outputOverflow)
    ∨ (fr.p + 2 ≤ s.inLen.toNat ∧ matchDistance position ≤ s.writeCursor
        ∧ s.outCount.toNat + matchLength rawLength ≤ s.size.toNat
        ∧ ∃ u, copyBytes (matchLength rawLength) (s.matchSource position) s.writeCursor s = .ok u
          ∧ t = (u.emitted (matchLength rawLength)).commit (fr.p + 2) fr.c) := by
  simp only [matchBody, raiseError] at h
  split at h
  · rename_i h1
    injection h with h
    exact .inl ⟨by simpa using h1, h.symm⟩
  · rename_i h1
    have h1' : fr.p + 2 ≤ s.inLen.toNat := by simpa using h1
    split at h
    · rename_i h2
      injection h with h
      exact .inr (.inl ⟨h1', h2, h.symm⟩)
    · rename_i h2
      split at h
      · rename_i h3
        injection h with h
        exact .inr (.inr (.inl ⟨h1', by omega, by simpa using h3, h.symm⟩))
      · rename_i h3
        split at h
        · cases h
        · rename_i u hu
          injection h with h
          exact .inr (.inr (.inr ⟨h1', by omega, by simpa using h3, u, hu, h.symm⟩))

/-- What a decode step can be: the three kinds of token, each ending as its body does. -/
theorem tokenStep_next {fr : Frame} {s t : State} (h : tokenStep fr s = .next t) :
    litBody fr (s.inByte fr.p) s = .next t
    ∨ t = s.raised .truncatedInput
    ∨ endBody fr s = .next t
    ∨ ∃ position rawLength, matchBody fr position rawLength s = .next t := by
  simp only [tokenStep, raiseError] at h
  split at h
  · exact .inl h
  · split at h
    · injection h with h
      exact .inr (.inl h.symm)
    · split at h
      · exact .inr (.inr (.inl h))
      · exact .inr (.inr (.inr ⟨_, _, h⟩))

/-- The engine's turn is the engine step. -/
theorem step_engine {s : State} (h : s.engineNext = true) : step s = engineStep s.turnTaken := by
  cases hs : s.turns with
  | nil =>
    have h0 : s.turnTaken = s := by
      cases s
      simp_all [State.turnTaken]
    rw [h0]
    simp [step, hs]
  | cons a l =>
    cases a with
    | engine => simp [step, hs, State.turnTaken]
    | host act => simp [State.engineNext, hs] at h

/-- The host's turn is its act. -/
theorem step_host {s : State} {act : HostAct} {rest : List Turn} (h : s.turns = .host act :: rest) :
    step s = hostAct act s.turnTaken := by
  simp [step, h, State.turnTaken]

end Sys2Proof.Machine
end

