-- ==== Sys2Proof/Laws/Encoding.lean ====
section
/-! SUPPORT. The fields of the encodings and of the packed registers as numbers. -/

namespace Sys2Proof

/-- Concatenation as arithmetic. -/
theorem append_toNat {m n : Nat} (x : BitVec m) (y : BitVec n) : (x ++ y).toNat = x.toNat * 2 ^ n + y.toNat := by
  rw [BitVec.toNat_append, ← Nat.shiftLeft_add_eq_or_of_lt y.isLt, Nat.shiftLeft_eq]

/-- A bit field as arithmetic. -/
theorem field_toNat {m : Nat} (x : BitVec m) (lo n : Nat) : (x.extractLsb' lo n).toNat = x.toNat / 2 ^ lo % 2 ^ n := by
  rw [BitVec.extractLsb'_toNat, Nat.shiftRight_eq_div_pow]

theorem le32_toNat (b0 b1 b2 b3 : Byte) :
    (le32 b0 b1 b2 b3).toNat = b0.toNat + b1.toNat * 2 ^ 8 + b2.toNat * 2 ^ 16 + b3.toNat * 2 ^ 24 := by
  simp only [le32, append_toNat]
  omega

theorem rawLengthOf_toNat (b1 : Byte) : (rawLengthOf b1).toNat = b1.toNat % 16 := by
  rw [rawLengthOf, field_toNat]
  omega

theorem positionOf_toNat (b0 b1 : Byte) : (positionOf b0 b1).toNat = b0.toNat * 16 + b1.toNat / 16 := by
  have := b1.isLt
  rw [positionOf, append_toNat, field_toNat]
  omega

namespace Machine

theorem State.statusWord_toNat (s : State) : s.statusWord.toNat = s.code.toNat * 16 + s.status.bits.toNat := by
  simp only [State.statusWord, append_toNat]
  simp
  omega

theorem State.debugWord_toNat (s : State) : s.debugWord.toNat = s.bitIdx.toNat * 256 + s.cmd.toNat := by
  simp only [State.debugWord, append_toNat]
  simp

theorem ErrorKind.code_le (e : ErrorKind) : e.code.toNat ≤ 6 := by
  cases e <;> decide

theorem ErrorKind.code_ne_zero (e : ErrorKind) : e.code ≠ 0#4 := by
  cases e <;> decide

theorem State.busy_iff (s : State) : s.busy = true ↔ ∃ c, s.status = .busy c := by
  unfold State.busy Status.isBusy
  cases s.status <;> simp

end Machine

end Sys2Proof
end

