-- ==== Sys2Proof/Laws/Engine.lean ====
section
/-! SUPPORT. What a step can do: the ways a decode step ends, what the fetch depends on, what the host can do while a command executes, and the canonical form kept by every memory operation. -/

namespace Sys2Proof.Machine

/-! ## The canonical form -/

theorem State.storeIn_wf {s : State} (h : Memory.wf s.inMem) (a : Nat) (v : Byte) : Memory.wf (s.storeIn a v).inMem :=
  Memory.set_wf h a v

theorem State.storeOut_wf {s : State} (h : Memory.wf s.outMem) (a : Nat) (v : Byte) : Memory.wf (s.storeOut a v).outMem :=
  Memory.set_wf h a v

theorem State.loadBytes_wf {bytes : List Byte} {s : State} (h : Memory.wf s.inMem) (p : Nat) :
    Memory.wf (s.loadBytes p bytes).inMem := by
  induction bytes generalizing s p with
  | nil => exact h
  | cons b l ih => exact ih (State.storeIn_wf h p b) (p + 1)

theorem reset_memories_wf : Memory.wf State.reset.inMem ∧ Memory.wf State.reset.outMem := by
  simp [State.reset, Memory.wf]

/-! ## The fetch -/

/-- The bytes fetched depend on IN_LEN and on the input memory alone. -/
theorem inBytes_congr {s t : State} (h1 : t.inLen = s.inLen) (h2 : t.inMem = s.inMem) (n p : Nat) :
    t.inBytes n p = s.inBytes n p := by
  induction n generalizing p with
  | zero => rfl
  | succ n ih => simp [State.inBytes, h1, ih, State.inByte, h2]

theorem fetchItem_turnTaken (s : State) : fetchItem s.turnTaken = fetchItem s := by
  unfold fetchItem
  rw [inBytes_congr (s := s) (t := s.turnTaken) rfl rfl]
  rfl

/-! ## The host while a command executes -/

/-- While BUSY no act of the host but the reset input reaches the engine, the memories or the placement: it changes at most what the host
has read, the completion mark and the counter of free reads. -/
theorem hostAct_busy {act : HostAct} {s t : State} (hb : s.busy = true) (hr : act ≠ .reset)
    (h : hostAct act s = .next t) : ∃ r u d, t = { s with readData := r, unseen := u, draws := d } := by
  have hs : ∃ r u d, s = { s with readData := r, unseen := u, draws := d } := ⟨_, _, _, rfl⟩
  cases act with
  | reset => exact absurd rfl hr
  | inWrite offset value => simp [hostAct, State.engineOwns, hb] at h
  | outWrite offset value => simp [hostAct, State.engineOwns, hb] at h
  | provideOut base cap => simp [hostAct, State.engineOwns, hb] at h
  | regRead bits offset =>
    simp only [hostAct] at h
    split at h
    · cases h
    · cases h
      exact ⟨_, _, _, rfl⟩
  | regWrite bits offset value =>
    simp only [hostAct, regStore, hb, if_true] at h
    split at h
    · cases h
    · cases h
      exact hs
  | inRead offset =>
    cases h
    exact ⟨_, _, _, rfl⟩
  | outRead offset =>
    simp only [hostAct] at h
    split at h
    · cases h
    · split at h <;> cases h <;> exact ⟨_, _, _, rfl⟩

/-! ## The ways a decode step ends -/

/-- The ways a decode step with this frame answers a next state: an error, a literal, a sentinel, or a match. -/
inductive StepEnd (fr : Frame) (s t : State) : Prop
  | raised (e : ErrorKind) (h : t = s.raised e)
  | literal (d : Byte) (h1 : fr.p + 1 ≤ s.inLen.toNat) (h2 : s.outCount.toNat + 1 ≤ s.size.toNat)
      (h3 : s.writeCursor < s.place.outCap)
      (h : t = ((s.storeOut s.writeCursor d).emitted 1).commit (fr.p + 1) fr.c)
  | sentinel (h1 : fr.p + 2 ≤ s.inLen.toNat) (h2 : s.outCount = s.size)
      (h : t = (s.commit (fr.p + 2) fr.c).finished)
  | copied (position : BitVec 12) (rawLength : BitVec 4) (u : State) (h1 : fr.p + 2 ≤ s.inLen.toNat)
      (h2 : matchDistance position ≤ s.writeCursor)
      (h3 : s.outCount.toNat + matchLength rawLength ≤ s.size.toNat)
      (hu : copyBytes (matchLength rawLength) (s.matchSource position) s.writeCursor s = .ok u)
      (h : t = (u.emitted (matchLength rawLength)).commit (fr.p + 2) fr.c)

theorem StepEnd.of_litBody {fr : Frame} {d : Byte} {s t : State} (h : litBody fr d s = .next t) : StepEnd fr s t := by
  rcases litBody_next h with ⟨_, h⟩ | ⟨_, _, h⟩ | ⟨h1, h2, h3, h⟩
  · exact .raised _ h
  · exact .raised _ h
  · exact .literal d h1 h2 h3 h

theorem StepEnd.of_endBody {fr : Frame} {s t : State} (h : endBody fr s = .next t) : StepEnd fr s t := by
  rcases endBody_next h with ⟨_, h⟩ | ⟨_, _, h⟩ | ⟨h1, h2, h⟩
  · exact .raised _ h
  · exact .raised _ h
  · exact .sentinel h1 h2 h

theorem StepEnd.of_matchBody {fr : Frame} {position : BitVec 12} {rawLength : BitVec 4} {s t : State}
    (h : matchBody fr position rawLength s = .next t) : StepEnd fr s t := by
  rcases matchBody_next h with ⟨_, h⟩ | ⟨_, _, h⟩ | ⟨_, _, _, h⟩ | ⟨h1, h2, h3, u, hu, h⟩
  · exact .raised _ h
  · exact .raised _ h
  · exact .raised _ h
  · exact .copied position rawLength u h1 h2 h3 hu h

theorem StepEnd.of_execCmd {c : Byte} {s t : State} (h : execCmd c s = .next t) :
    StepEnd { p := s.inPtr.toNat + 1, c := c } s t := by
  unfold execCmd raiseError at h
  split at h
  · injection h with h
    exact .raised _ h.symm
  · rcases tokenStep_next h with h | h | h | ⟨_, _, h⟩
    · exact .of_litBody h
    · exact .raised _ h
    · exact .of_endBody h
    · exact .of_matchBody h

/-- However it ends, a decode step leaves the host's side, the input and the parameters as they were. -/
theorem StepEnd.unchanged {fr : Frame} {s t : State} (h : StepEnd fr s t) :
    t.inMem = s.inMem ∧ t.inLen = s.inLen ∧ t.size = s.size ∧ t.place = s.place ∧ t.unseen = s.unseen
      ∧ t.turns = s.turns ∧ t.readData = s.readData ∧ t.outGen = s.outGen ∧ t.draws = s.draws := by
  rcases h with ⟨e, rfl⟩ | ⟨d, _, _, _, rfl⟩ | ⟨_, _, rfl⟩ | ⟨p, r, u, _, _, _, hu, rfl⟩
  · simp
  · simp
  · simp
  · rw [copyBytes_frame hu]
    simp

end Sys2Proof.Machine
end

