-- ==== Sys2Proof/Laws/PerInstr.lean ====
section
/-! SUPPORT. The statements made for each instruction by itself: that its table word fits the row's bits, and that its stream bytes are as many as its format has (30_encoding.md R70, R78). -/

namespace Sys2Proof.Laws.EncodingWidth

/-- The table word fits its bits, which are whole bytes, and the bytes of the stream are as many as the selector's format has. -/
def Statement (i : Instr) : Prop :=
  (encodeTableWord i).2 < 2 ^ (encodeTableWord i).1 ∧ (encodeTableWord i).1 % 8 = 0
  ∧ ∀ sel bytes, encode i = .stream sel bytes → bytes.length = sel.length

theorem cmd (c : Byte) : Statement (.cmd c) := by
  refine ⟨c.isLt, by simp [encodeTableWord], ?_⟩
  rintro _ _ ⟨⟩
  rfl

theorem lit (d : Byte) : Statement (.lit d) := by
  have := d.isLt
  refine ⟨?_, by simp [encodeTableWord], ?_⟩
  · simp only [encodeTableWord]
    omega
  · rintro _ _ ⟨⟩
    rfl

theorem sentinel (position : BitVec 12) : Statement (.sentinel position) := by
  have := position.isLt
  refine ⟨?_, by simp [encodeTableWord], ?_⟩
  · simp only [encodeTableWord]
    omega
  · rintro _ _ ⟨⟩
    rfl

theorem backref (position : BitVec 12) (rawLength : BitVec 4) : Statement (.backref position rawLength) := by
  have := position.isLt
  have := rawLength.isLt
  refine ⟨?_, by simp [encodeTableWord], ?_⟩
  · simp only [encodeTableWord]
    omega
  · rintro _ _ ⟨⟩
    rfl

theorem nop : Statement .nop := ⟨by decide, rfl, by rintro _ _ ⟨⟩⟩

theorem inspect : Statement .inspect := ⟨by decide, rfl, by rintro _ _ ⟨⟩⟩

theorem decode : Statement .decode := ⟨by decide, rfl, by rintro _ _ ⟨⟩⟩

theorem rsvd : Statement .rsvd := ⟨by decide, rfl, by rintro _ _ ⟨⟩⟩

end Sys2Proof.Laws.EncodingWidth
end

