-- ==== Sys2Proof/Tests/Slice0.lean ====
section
/-! SUPPORT. The model's own tests: the refused ill-formed term, words written out from the spec, single steps with results taken from 95_test_vectors.md, and a witness for the hypotheses of each statement. -/

namespace Sys2Proof.Tests

open Sys2Proof.Machine

/-! ## Well-formedness -/

theorem test_backref_without_length_is_ill_formed : (Instr.backref 0#12 0#4).wellFormed = false := by decide

theorem test_backref_with_length_is_well_formed : (Instr.backref 0#12 1#4).wellFormed = true := by decide

/-! ## Decoding, words from 30_encoding.md R72 to R77 and the streams of 95_test_vectors.md -/

/-- P1's command byte `CMD 0b00110100`. -/
theorem test_decode_cmd : decode (.stream .command [0b00110100#8]) = .ok (.cmd 0x34#8, []) := by decide

/-- R73: the literal 0x41. -/
theorem test_decode_lit : decode (.stream (.token false) [0b01000001#8]) = .ok (.lit 0x41#8, []) := by decide

/-- L1-3: `00 04` is `MATCH p=0, n=5`. -/
theorem test_decode_match : decode (.stream (.token true) [0x00#8, 0x04#8]) = .ok (.backref 0#12 4#4, []) := by decide

/-- Program W: `ff f1` is `MATCH p=4095, n=2`. -/
theorem test_decode_match_furthest : decode (.stream (.token true) [0xff#8, 0xf1#8]) = .ok (.backref 4095#12 1#4, []) := by
  decide

/-- E-1: `ab c0` is a sentinel with position 0xABC. -/
theorem test_decode_sentinel : decode (.stream (.token true) [0xab#8, 0xc0#8]) = .ok (.sentinel 0xABC#12, []) := by decide

/-- R77: the reserved bits [31:2] are ignored. -/
theorem test_decode_nop : decode (.ctrl 0b11111111111111111111111111111100#32) = .ok (.nop, []) := by decide

theorem test_decode_inspect : decode (.ctrl 0b10000000000000000000000000000001#32) = .ok (.inspect, []) := by decide

theorem test_decode_decode : decode (.ctrl 0b00000000000000000000000000000110#32) = .ok (.decode, []) := by decide

theorem test_decode_rsvd : decode (.ctrl 0b00000000000000000000000000000011#32) = .ok (.rsvd, []) := by decide

/-- M-12: one byte of a flag-1 token is no token. -/
theorem test_decode_missing_byte : decode (.stream (.token true) [0x00#8]) = .error .missingBytes := by decide

/-- H-8: the header `4c 5a 53 53 78 56 34 12`. -/
theorem test_decode_header :
    decodeHeader [0x4c#8, 0x5a#8, 0x53#8, 0x53#8, 0x78#8, 0x56#8, 0x34#8, 0x12#8] = .ok (magic, 0x12345678#32) := by
  decide

/-- P3, AUTO grouping of its five items. -/
theorem test_assemble_p3 :
    assembleContainer 6#32 [.lit 0x78#8, .lit 0x79#8, .backref 0#12 1#4, .backref 4#12 1#4, .sentinel 0#12]
      = [0x4c#8, 0x5a#8, 0x53#8, 0x53#8, 0x06#8, 0x00#8, 0x00#8, 0x00#8, 0x1c#8,
         0x78#8, 0x79#8, 0x00#8, 0x01#8, 0x00#8, 0x41#8, 0x00#8, 0x00#8] := by
  decide

/-! ## Single steps -/

/-- A state whose input memory holds these bytes from offset 0 and nothing else. -/
def withInput (bytes : List Byte) : State :=
  { State.reset.loadBytes 0 bytes with inLen := BitVec.ofNat 32 bytes.length }

/-- A DECODE executing over this stream, which stands at offset 8. -/
def decoding (size : Word) (stream : List Byte) : State :=
  { State.reset.loadBytes 8 stream with
    inLen := BitVec.ofNat 32 (8 + stream.length), size := size
    status := .busy .decode, inPtr := 8#32, unseen := true }

/-- The same in the middle of a group, with these output bytes already written. -/
def midGroup (size : Word) (cmd : Byte) (idx : BitVec 3) (stream : List Byte) (out : Memory) : State :=
  { decoding size stream with cmd := cmd, bitIdx := idx, outMem := out, outCount := BitVec.ofNat 32 out.length }

/-- STATE, CODE and the decoder's registers after one step: (STATUS, IN_PTR, OUT_COUNT, CMD, BIT_IDX). -/
def registersAfterStep (s : State) : Option (Nat × Nat × Nat × Nat × Nat) :=
  match step s with
  | .next t => some (t.statusWord.toNat, t.inPtr.toNat, t.outCount.toNat, t.cmd.toNat, t.bitIdx.toNat)
  | .fault _ => none
  | .refused _ => none

/-- The output memory after one step. -/
def outputAfterStep (s : State) : Option Memory :=
  match step s with
  | .next t => some t.outMem
  | .fault _ => none
  | .refused _ => none

/-- R102's example with L1-3: the command byte 0x06 and the literal after it are one step. -/
theorem test_step_cmd_with_literal :
    registersAfterStep (decoding 6#32 [0x06#8, 0x41#8, 0x00#8, 0x04#8, 0x00#8, 0x00#8]) = some (1, 10, 1, 0x06, 1) := by
  decide

/-- D-4: a command byte with no literal after it fails as a whole. -/
theorem test_step_cmd_without_token :
    registersAfterStep (decoding 1#32 [0x00#8]) = some (0x33, 8, 0, 0, 0) := by decide

/-- L1-4: the third literal with SIZE 2 is OutputOverflow. -/
theorem test_step_lit_overflow :
    registersAfterStep (midGroup 2#32 0x00#8 2#3 [0x43#8] [(0, 0x41#8), (1, 0x42#8)]) = some (0x53, 8, 2, 0, 2) := by
  decide

theorem test_step_lit_stores :
    outputAfterStep (midGroup 2#32 0x00#8 1#3 [0x42#8] [(0, 0x41#8)]) = some [(0, 0x41#8), (1, 0x42#8)] := by decide

/-- M-2: position 1, length 6, an overlapping copy. -/
theorem test_step_match_overlap :
    outputAfterStep (midGroup 8#32 0x0c#8 2#3 [0x00#8, 0x15#8] [(0, 0x41#8), (1, 0x42#8)])
      = some [(0, 0x41#8), (1, 0x42#8), (2, 0x41#8), (3, 0x42#8), (4, 0x41#8), (5, 0x42#8), (6, 0x41#8), (7, 0x42#8)] := by
  decide

/-- M-6: position 3 with three bytes written is InvalidBackReference. -/
theorem test_step_match_too_far :
    registersAfterStep (midGroup 5#32 0x18#8 3#3 [0x00#8, 0x31#8] [(0, 0x41#8), (1, 0x42#8), (2, 0x43#8)])
      = some (0x43, 8, 3, 0x18, 3) := by
  decide

/-- E-2: a sentinel with a position at OUT_COUNT 0. -/
theorem test_step_sentinel_done :
    registersAfterStep (decoding 0#32 [0x01#8, 0xab#8, 0xc0#8]) = some (2, 11, 0, 1, 1) := by decide

/-- E-3: `41 00` under flag 1 is a sentinel, and SIZE 1 is not reached. -/
theorem test_step_sentinel_mismatch :
    registersAfterStep (decoding 1#32 [0x01#8, 0x41#8, 0x00#8]) = some (0x63, 8, 0, 0, 0) := by decide

/-- H-7: INSPECT's step reads SIZE 6. -/
theorem test_step_inspect :
    (match step { withInput [0x4c#8, 0x5a#8, 0x53#8, 0x53#8, 0x06#8, 0x00#8, 0x00#8, 0x00#8] with
        status := .busy .inspect, unseen := true } with
      | .next t => some (t.statusWord.toNat, t.size.toNat)
      | .fault _ => none
      | .refused _ => none) = some (2, 6) := by
  decide

/-- H-5: four bytes of a wrong magic are NotCompressed, not TruncatedHeader. -/
theorem test_step_inspect_wrong_magic :
    registersAfterStep { withInput [0x41#8, 0x42#8, 0x43#8, 0x44#8] with status := .busy .inspect, unseen := true }
      = some (0x13, 0, 0, 0, 0) := by
  decide

/-- R100: the start of DECODE by a CTRL write. -/
theorem test_step_decode_start :
    registersAfterStep { State.reset with
      turns := [.host (.regWrite 32 0x00#32 2#32)], outCount := 5#32, cmd := 9#8, bitIdx := 3#3 }
      = some (1, 8, 0, 0, 0) := by
  decide

/-- C-3: CTRL = 3 changes nothing. -/
theorem test_step_rsvd :
    registersAfterStep { State.reset with status := .done, turns := [.host (.regWrite 32 0x00#32 3#32)] }
      = some (2, 0, 0, 0, 0) := by
  decide

theorem test_step_nop :
    registersAfterStep { State.reset with status := .done, turns := [.host (.regWrite 32 0x00#32 0#32)] }
      = some (2, 0, 0, 0, 0) := by
  decide

/-- C-6: DEBUG after L1-3. -/
theorem test_read_debug : State.regValue { State.reset with cmd := 0x06#8, bitIdx := 3#3 } 0x18#32 = 0x306#32 := by decide

/-- C-5: STATUS after OutputOverflow. -/
theorem test_read_status : State.regValue { State.reset with status := .error, code := 5#4 } 0x04#32 = 0x53#32 := by decide

/-! ## Witnesses: states and operands that meet the hypotheses of the statements -/

theorem witness_ResetInputFromEveryState :
    ({ decoding 6#32 [0x06#8] with turns := [.host .reset, .engine] } : State).turns = .host .reset :: [.engine] := rfl

theorem witness_EngineTakesNoStepUntilCommanded :
    let s : State := { State.reset with status := .error, code := 4#4 }
    s.busy = false ∧ s.engineNext = true := by decide

/-- The host turns that do not start a command: a CTRL write of the reserved OP, and the reset input. -/
theorem witness_EngineTakesNoStepUntilCommanded_host_turns :
    let s : State := { State.reset with status := .done, turns := [.host (.regWrite 32 0x00#32 7#32), .host .reset] }
    s.busy = false ∧ s.turns = .host (.regWrite 32 0x00#32 7#32) :: [.host .reset]
    ∧ (7#32 : Word).extractLsb' 0 2 = 0b11#2 ∧ step s = .next s.turnTaken
    ∧ step s.turnTaken = .next s.turnTaken.turnTaken.assertReset :=
  ⟨by decide, by decide, by decide, by rfl, by rfl⟩

theorem witness_RegisterMap_mapped_and_unmapped :
    (0x10#32 : Word).toNat % 4 = 0 ∧ 0x10 ≤ (0x10#32 : Word).toNat
    ∧ (0x1C#32 : Word).toNat % 4 = 0 ∧ 0x1C ≤ (0x1C#32 : Word).toNat
    ∧ (0x04#32 : Word).toNat % 4 = 0 ∧ (0x04#32 : Word).toNat = 0x04 := by decide

theorem witness_UnmappedOffsetsReadZero :
    ((0x1C#32 : Word).toNat % 4 = 0 ∧ 0x1C ≤ (0x1C#32 : Word).toNat)
    ∧ ((0xFFFFFFFC#32 : Word).toNat % 4 = 0 ∧ 0x1C ≤ (0xFFFFFFFC#32 : Word).toNat) := by decide

theorem witness_HostSetsLengthAndSize :
    State.reset.busy = false ∧ (decoding 6#32 [0x06#8]).busy = true := by decide

theorem witness_RegisterWritesIgnoredWhileBusy :
    (decoding 6#32 [0x06#8]).busy = true ∧ (0x0C#32 : Word).toNat % 4 = 0 := by decide

theorem witness_MalformedRegisterAccessRefused :
    (16 ≠ 32 ∨ (0x04#32 : Word).toNat % 4 ≠ 0) ∧ (32 ≠ 32 ∨ (0x06#32 : Word).toNat % 4 ≠ 0) := by decide

theorem witness_CtrlWriteRunsItsCommand :
    let s : State := { State.reset with turns := [.host (.regWrite 32 0x00#32 1#32)] }
    let t : State := { decoding 6#32 [0x06#8] with turns := [.host (.regWrite 32 0x00#32 1#32)] }
    s.turns = .host (.regWrite 32 0x00#32 1#32) :: [] ∧ s.busy = false
    ∧ t.turns = .host (.regWrite 32 0x00#32 1#32) :: [] ∧ t.busy = true
    ∧ (4#32 : Word).extractLsb' 0 2 = 0b00#2 ∧ (5#32 : Word).extractLsb' 0 2 = 0b01#2
    ∧ (6#32 : Word).extractLsb' 0 2 = 0b10#2 ∧ (7#32 : Word).extractLsb' 0 2 = 0b11#2 := by decide

theorem witness_NopAndReservedChangeNothing :
    ((4#32 : Word).extractLsb' 0 2 = 0b00#2 ∨ (4#32 : Word).extractLsb' 0 2 = 0b11#2)
    ∧ (6#32 : Word).extractLsb' 0 2 = (2#32 : Word).extractLsb' 0 2 := by decide

theorem witness_HostMemoryWritesRefusedWhileOwned : (decoding 6#32 [0x06#8]).busy = true := by decide

theorem witness_HostProvidesOutputMemory :
    ({ State.reset with status := .done, unseen := true } : State).busy = false := by decide

theorem witness_OutputVisibleAfterCompletionRead :
    let s : State := { State.reset with
      status := .done, unseen := true, outMem := [(0, 0x41#8)], outCount := 1#32, size := 1#32
      turns := [.host (.regRead 32 0x04#32), .host (.outRead 0#32)] }
    s.busy = false ∧ (0#32 : Word).toNat < s.place.outCap
    ∧ s.turns = .host (.regRead 32 0x04#32) :: .host (.outRead 0#32) :: [] := by decide

/-- While BUSY, and behind a DECODE whose end the host has not seen. -/
theorem witness_OutputReadWhileOwnedIsFree :
    (let s := decoding 6#32 [0x06#8]
     (s.busy = true ∨ s.unseen = true) ∧ (5#32 : Word).toNat < s.place.outCap)
    ∧ (let s : State := { State.reset with status := .done, unseen := true }
       (s.busy = true ∨ s.unseen = true) ∧ (0xFFFFFFFF#32 : Word).toNat < s.place.outCap) := by decide

/-- The host writes behind a command whose end it has not seen, and reads at reset. -/
theorem witness_HostMemoryAccess :
    (let s : State := { State.reset with status := .error, code := 1#4, unseen := true }
     s.busy = false ∧ (0xFFFFFFFF#32 : Word).toNat < s.place.outCap)
    ∧ State.reset.busy = false ∧ State.reset.unseen = false ∧ (0#32 : Word).toNat < State.reset.place.outCap := by decide

theorem witness_InspectStart : State.reset.busy = false ∧ State.reset.memoriesShare = false := by decide

/-- A container too short, one with a wrong magic, one that ends after the magic, and one that INSPECT accepts. -/
theorem witness_InspectStep :
    (let s : State := { withInput [0x4c#8, 0x5a#8, 0x53#8] with status := .busy .inspect }
     s.status = .busy .inspect ∧ s.inLen.toNat < 4)
    ∧ (let s : State := { withInput [0x43#8, 0x4c#8, 0x53#8, 0x5a#8] with status := .busy .inspect }
       s.status = .busy .inspect ∧ 4 ≤ s.inLen.toNat
       ∧ le32 (s.inByte 0) (s.inByte 1) (s.inByte 2) (s.inByte 3) ≠ 1397971532#32)
    ∧ (let s : State := { withInput [0x4c#8, 0x5a#8, 0x53#8, 0x53#8, 0x06#8, 0x00#8, 0x00#8] with status := .busy .inspect }
       s.status = .busy .inspect ∧ 4 ≤ s.inLen.toNat ∧ s.inLen.toNat < 8
       ∧ le32 (s.inByte 0) (s.inByte 1) (s.inByte 2) (s.inByte 3) = 1397971532#32)
    ∧ (let s : State := { withInput (encodeHeader magic 6#32) with status := .busy .inspect }
       s.status = .busy .inspect ∧ 8 ≤ s.inLen.toNat
       ∧ le32 (s.inByte 0) (s.inByte 1) (s.inByte 2) (s.inByte 3) = 1397971532#32) := by
  decide

theorem witness_InspectReadsOnlyHeader :
    let s : State := { withInput (encodeHeader magic 6#32) with status := .busy .inspect, unseen := true }
    (∀ a, a < 8 → ({ s with inMem := s.inMem ++ [(8, 0x01#8)] } : State).inByte a = s.inByte a)
    ∧ (exec .inspect s = .next { s with size := 6#32, status := .done, code := 0#4 }) := by
  refine ⟨by decide, by rfl⟩

theorem witness_MagicIsFourExactBytes :
    let s : State := { withInput [0x4c#8, 0x5a#8, 0x53#8, 0x53#8] with status := .busy .inspect }
    let t : State := { withInput [0x43#8, 0x4c#8, 0x53#8, 0x5a#8] with status := .busy .inspect }
    s.status = .busy .inspect ∧ 4 ≤ s.inLen.toNat
    ∧ t.status = .busy .inspect ∧ 4 ≤ t.inLen.toNat
    ∧ t.inByte 0 = 0x43#8 ∧ t.inByte 1 = 0x4C#8 ∧ t.inByte 2 = 0x53#8 ∧ t.inByte 3 = 0x5A#8 := by
  decide

theorem witness_EncodedHeaderPassesInspect :
    let s : State := { withInput (encodeHeader magic 0x12345678#32) with status := .busy .inspect }
    s.status = .busy .inspect ∧ 8 ≤ s.inLen.toNat
    ∧ ∀ k, k < 8 → some (s.inByte k) = (encodeHeader magic 0x12345678#32)[k]? := by
  decide

theorem witness_DecodeStart :
    let s : State := { State.reset with size := 6#32 }
    s.busy = false ∧ s.memoriesShare = false ∧ s.size.toNat ≤ s.place.outCap := by decide

theorem witness_DecodeForgetsEarlierCommands :
    State.reset.busy = false ∧ Status.error.isBusy = false := by decide

/-- The output memory placed over the container's last byte; and over another engine's memory. -/
theorem witness_LaunchRefusedExactlyWhenStorageShared :
    let s : State := { State.reset with inLen := 8#32, place := { Config.resetPlacement with outBase := 7 } }
    let t : State := { State.reset with place := { Config.resetPlacement with others := [⟨0x100000005, 1⟩] } }
    s.busy = false ∧ 7 < s.inLen.toNat ∧ 0 < s.place.outCap ∧ s.place.inBase + 7 = s.place.outBase + 0
    ∧ t.busy = false ∧ ⟨0x100000005, 1⟩ ∈ t.place.others ∧ 5 < t.place.outCap
    ∧ t.place.outBase + 5 = 0x100000005 + 0 := by
  decide

theorem witness_UndersizedOutputRefused :
    let s : State := { State.reset with size := 6#32, place := { Config.resetPlacement with outCap := 5 } }
    s.busy = false ∧ s.memoriesShare = false ∧ s.place.outCap < s.size.toNat := by decide

theorem witness_LiteralStep :
    (let s := midGroup 2#32 0x00#8 1#3 [] [(0, 0x41#8)]
     s.inLen.toNat < s.tokenStart + 1)
    ∧ (let s := midGroup 1#32 0x00#8 1#3 [0x42#8] [(0, 0x41#8)]
       s.tokenStart + 1 ≤ s.inLen.toNat ∧ s.size.toNat ≤ s.outCount.toNat)
    ∧ (let s := midGroup 2#32 0x00#8 1#3 [0x42#8] [(0, 0x41#8)]
       s.tokenStart + 1 ≤ s.inLen.toNat ∧ s.outCount.toNat < s.size.toNat ∧ s.size.toNat ≤ s.place.outCap
       ∧ s.engineNext = true ∧ s.status = .busy .decode ∧ s.bitIdx ≠ 0#3 ∧ s.cmd.getLsbD s.bitIdx.toNat = false
       ∧ s.inPtr.toNat < s.inLen.toNat) := by
  decide

theorem witness_MatchErrors :
    (let s := midGroup 5#32 0x18#8 3#3 [0x00#8] [(0, 0x41#8)]
     s.inLen.toNat < s.tokenStart + 2)
    ∧ (let s := midGroup 5#32 0x18#8 3#3 [0x00#8, 0x11#8] [(0, 0x41#8)]
       s.tokenStart + 2 ≤ s.inLen.toNat ∧ s.outCount.toNat ≤ (1#12).toNat)
    ∧ (let s := midGroup 2#32 0x18#8 3#3 [0x00#8, 0x01#8] [(0, 0x41#8)]
       s.tokenStart + 2 ≤ s.inLen.toNat ∧ (0#12).toNat < s.outCount.toNat
       ∧ s.size.toNat < s.outCount.toNat + ((1#4).toNat + 1)) := by
  decide

theorem witness_MatchCopiesClosedForm :
    let s := midGroup 3#32 0x18#8 3#3 [0x00#8, 0x01#8] [(0, 0x41#8)]
    s.tokenStart + 2 ≤ s.inLen.toNat ∧ (0#12).toNat < s.outCount.toNat
    ∧ s.outCount.toNat + ((1#4).toNat + 1) ≤ s.size.toNat ∧ s.size.toNat ≤ s.place.outCap := by
  decide

theorem witness_TokensExtendOutputByteByByte :
    let s := midGroup 3#32 0x18#8 3#3 [0x00#8, 0x01#8] [(0, 0x41#8)]
    s.status = .busy .decode
    ∧ (match exec (.backref 0#12 1#4) s with
        | .next t => decide (t.status ≠ .error)
        | .fault _ => false
        | .refused _ => false) = true
    ∧ (match exec (.lit 0x42#8) s with
        | .next t => decide (t.status ≠ .error)
        | .fault _ => false
        | .refused _ => false) = true := by
  decide

theorem witness_SentinelStep :
    (let s := midGroup 1#32 0x02#8 1#3 [0x00#8] [(0, 0x41#8)]
     s.inLen.toNat < s.tokenStart + 2)
    ∧ (let s := midGroup 2#32 0x02#8 1#3 [0x00#8, 0x00#8] [(0, 0x41#8)]
       s.tokenStart + 2 ≤ s.inLen.toNat ∧ s.outCount ≠ s.size)
    ∧ (let s := midGroup 1#32 0x02#8 1#3 [0x00#8, 0x00#8] [(0, 0x41#8)]
       s.tokenStart + 2 ≤ s.inLen.toNat ∧ s.outCount = s.size) := by
  decide

/-- The invariant for a state of this file: each clause is a check on listed data. -/
theorem inv_of_clauses {s : State} (h : Memory.wf s.inMem ∧ (∀ x ∈ s.inMem, x.1 < 2 ^ 32) ∧ Memory.wf s.outMem
    ∧ (∀ x ∈ s.outMem, x.1 < s.place.outCap) ∧ s.code.toNat ≤ 6 ∧ (s.status = .error ↔ s.code ≠ 0#4)
    ∧ s.unseen = true ∧ s.memoriesShare = false
    ∧ (s.inPtr.toNat = 8 ∨ (8 < s.inPtr.toNat ∧ s.inPtr.toNat ≤ s.inLen.toNat))
    ∧ s.outCount.toNat ≤ s.size.toNat ∧ s.size.toNat ≤ s.place.outCap
    ∧ ∀ a < s.outCount.toNat, (Memory.get s.outMem a).isSome = true) : StateInv s := by
  obtain ⟨a, b, c, d, e, f, g, i, j, k, l, m⟩ := h
  exact ⟨a, b, c, d, e, f, fun _ => g, fun _ => i, fun _ => j, fun _ => k, fun _ => l, fun _ => m⟩

theorem witness_SizeMismatchMeansTooFewBytes :
    let s := midGroup 2#32 0x02#8 1#3 [0x00#8, 0x00#8] [(0, 0x41#8)]
    StateInv s ∧ s.status = .busy .decode
    ∧ exec (.sentinel 0#12) s = .next { s with status := .error, code := 6#4 } :=
  ⟨inv_of_clauses (by decide), by decide, by rfl⟩

theorem witness_CommandByteStepIsItsTokensStep :
    (let s := decoding 6#32 []
     s.bitIdx = 0#3 ∧ s.inLen.toNat ≤ s.inPtr.toNat)
    ∧ (let s := decoding 6#32 [0x06#8, 0x41#8]
       s.bitIdx = 0#3 ∧ s.inPtr.toNat < s.inLen.toNat ∧ s.inByte s.inPtr.toNat = 0x06#8
       ∧ decodeStream (.token ((0x06#8 : Byte).getLsbD 0)) (s.inBytes 1 (s.inPtr.toNat + 1)) = .ok (.lit 0x41#8, []))
    ∧ (let s := decoding 6#32 [0x01#8, 0x41#8]
       s.bitIdx = 0#3 ∧ s.inPtr.toNat < s.inLen.toNat ∧ s.inByte s.inPtr.toNat = 0x01#8
       ∧ decodeStream (.token ((0x01#8 : Byte).getLsbD 0)) (s.inBytes 2 (s.inPtr.toNat + 1)) = .error .missingBytes) := by
  decide

theorem witness_CommandByteCompletes :
    (let s := decoding 6#32 [0x06#8, 0x41#8]
     s.bitIdx = 0#3 ∧ (0x06#8 : Byte).getLsbD 0 = false ∧ s.inPtr.toNat + 2 ≤ s.inLen.toNat
     ∧ s.outCount.toNat < s.size.toNat ∧ s.size.toNat ≤ s.place.outCap)
    ∧ (let s := decoding 0#32 [0x01#8, 0xab#8, 0xc0#8]
       s.bitIdx = 0#3 ∧ (0x01#8 : Byte).getLsbD 0 = true ∧ s.inPtr.toNat + 3 ≤ s.inLen.toNat
       ∧ rawLengthOf (s.inByte (s.inPtr.toNat + 2)) = 0#4 ∧ s.outCount = s.size)
    ∧ (let s := midGroup 3#32 0x00#8 0#3 [0x01#8, 0x00#8, 0x01#8] [(0, 0x41#8)]
       s.bitIdx = 0#3 ∧ (0x01#8 : Byte).getLsbD 0 = true ∧ s.inPtr.toNat + 3 ≤ s.inLen.toNat
       ∧ 0#12 = positionOf (s.inByte (s.inPtr.toNat + 1)) (s.inByte (s.inPtr.toNat + 2))
       ∧ 1#4 = rawLengthOf (s.inByte (s.inPtr.toNat + 2)) ∧ 1#4 ≠ 0#4
       ∧ (0#12).toNat < s.outCount.toNat ∧ s.outCount.toNat + ((1#4).toNat + 1) ≤ s.size.toNat
       ∧ s.size.toNat ≤ s.place.outCap) := by
  decide

theorem witness_StepRunsDecodedItem :
    (let s : State := { withInput [] with status := .busy .inspect }
     s.engineNext = true ∧ s.status = .busy .inspect)
    ∧ (let s := midGroup 2#32 0x00#8 1#3 [0x42#8] [(0, 0x41#8)]
       s.engineNext = true ∧ s.status = .busy .decode ∧ fetchItem s = .ok (.lit 0x42#8))
    ∧ (let s := midGroup 2#32 0x00#8 1#3 [] [(0, 0x41#8)]
       s.engineNext = true ∧ s.status = .busy .decode ∧ fetchItem s = .error .missingBytes) := by
  decide

theorem witness_StepRunsItemAtInPtr :
    let s := midGroup 3#32 0x02#8 1#3 [0xff#8, 0xf1#8] [(0, 0x41#8)]
    s.engineNext = true ∧ s.status = .busy .decode ∧ (Instr.backref 4095#12 1#4).wellFormed = true
    ∧ encode (.backref 4095#12 1#4) = .stream s.select [0xff#8, 0xf1#8]
    ∧ s.inPtr.toNat + 2 ≤ s.inLen.toNat
    ∧ ∀ k, k < 2 → some (s.inByte (s.inPtr.toNat + k)) = [(0xff#8 : Byte), 0xf1#8][k]? := by
  decide

theorem witness_NextStepRunsPlacedWord :
    decodeTableWord 24 0x10005 = some (.backref 0#12 5#4) ∧ decodeTableWord 8 0x34 = some (.cmd 0x34#8)
    ∧ decodeTableWord 16 0x41 = some (.lit 0x41#8) ∧ decodeTableWord 32 1 = some .inspect := by decide

/-- A decode step that goes on, from a state that meets the invariant. -/
theorem witness_decode_step_goes_on :
    let s := decoding 6#32 [0x06#8, 0x41#8]
    let t : State := { s with
      outMem := [(0, 0x41#8)], outCount := 1#32, inPtr := 10#32, cmd := 0x06#8, bitIdx := 1#3 }
    StateInv s ∧ s.engineNext = true ∧ s.status = .busy .decode ∧ s.turns = [] ∧ step s = .next t
    ∧ t.status ≠ .error ∧ t.busy = true ∧ s.outCount.toNat ≤ s.size.toNat :=
  ⟨inv_of_clauses (by decide), by decide, by decide, by decide, by rfl, by decide, by decide, by decide⟩

/-- A DECODE of two steps, with the host reading STATUS between them. -/
theorem witness_DecodeAlwaysEnds_with_host_turns :
    let s : State := { decoding 1#32 [0x02#8, 0x41#8, 0x00#8, 0x00#8] with
      turns := [.engine, .host (.regRead 32 0x04#32), .engine] }
    StateInv s ∧ s.status = .busy .decode ∧ .host .reset ∉ s.turns.take 6
    ∧ core.run 6 s = .next { s with
        outMem := [(0, 0x41#8)], outCount := 1#32, inPtr := 12#32, cmd := 0x02#8, bitIdx := 2#3
        status := .done, readData := 1#32, turns := [] }
    ∧ (s.inLen.toNat - s.inPtr.toNat) + 1 ≤ engineTurns 6 s.turns :=
  ⟨inv_of_clauses (by decide), by decide, by decide, by rfl, by decide⟩

theorem witness_ErrorsArePrecise :
    let s := decoding 1#32 [0x01#8, 0x41#8, 0x00#8]
    s.engineNext = true ∧ s.busy = true ∧ step s = .next { s with status := .error, code := 6#4 } :=
  ⟨by decide, by decide, by rfl⟩

theorem witness_InstructionFrames :
    let s := midGroup 2#32 0x00#8 1#3 [0x42#8] [(0, 0x41#8)]
    exec (.lit 0x42#8) s = .next { s with
      outMem := [(0, 0x41#8), (1, 0x42#8)], outCount := 2#32, inPtr := 9#32, bitIdx := 2#3 } := by rfl

theorem witness_EveryStepKeepsInv_host_turn :
    let s : State := { decoding 6#32 [0x06#8] with turns := [.host .reset] }
    StateInv s ∧ step s = .next s.turnTaken.assertReset :=
  ⟨inv_of_clauses (by decide), by rfl⟩

theorem witness_DoneMeansWholeOutputWritten :
    let s := midGroup 1#32 0x02#8 1#3 [0x00#8, 0x00#8] [(0, 0x41#8)]
    StateInv s ∧ s.engineNext = true ∧ s.status = .busy .decode
    ∧ step s = .next { s with inPtr := 10#32, bitIdx := 2#3, status := .done } :=
  ⟨inv_of_clauses (by decide), by decide, by decide, by rfl⟩

/-- Two states that differ in the header region and in the output above OUT_COUNT. -/
theorem witness_DecodeIgnoresHeaderAndUnwrittenOutput :
    let s := midGroup 3#32 0x00#8 1#3 [0x42#8] [(0, 0x41#8)]
    let t : State := { s with inMem := (0, 0x99#8) :: s.inMem, outMem := [(0, 0x41#8), (1, 0x77#8)] }
    StateInv s ∧ StateInv t ∧ s.engineNext = true ∧ t.engineNext = true
    ∧ s.status = .busy .decode ∧ t.status = .busy .decode
    ∧ (t.code = s.code ∧ t.inLen = s.inLen ∧ t.size = s.size ∧ t.outCount = s.outCount ∧ t.inPtr = s.inPtr
      ∧ t.cmd = s.cmd ∧ t.bitIdx = s.bitIdx)
    ∧ t.inByte 8 = s.inByte 8 ∧ s.inLen.toNat = 9 ∧ t.outByte 0 = s.outByte 0 ∧ s.outCount.toNat = 1
    ∧ step s = .next { s with
        outMem := [(0, 0x41#8), (1, 0x42#8)], outCount := 2#32, inPtr := 9#32, bitIdx := 2#3 } :=
  ⟨inv_of_clauses (by decide), inv_of_clauses (by decide), by decide, by decide, by decide, by decide, by decide,
    by decide, by decide, by decide, by decide, by rfl⟩

theorem witness_CompletionStatusIsSticky :
    let s : State := { State.reset with status := .error, code := 4#4, turns := [.host (.regWrite 32 0x00#32 3#32)] }
    s.turns = .host (.regWrite 32 0x00#32 3#32) :: [] ∧ HostAct.regWrite 32 0x00#32 3#32 ≠ .reset
    ∧ (3#32 : Word).extractLsb' 0 2 = 0b11#2 ∧ step s = .next s.turnTaken
    ∧ s.turnTaken.engineNext = true ∧ s.turnTaken.busy = false :=
  ⟨by decide, by decide, by decide, by rfl, by decide, by decide⟩

theorem witness_PlacementIsAParameter :
    step { State.reset with turns := [.host (.provideOut 64 16)] }
      = .next { State.reset with outGen := 1, place := { Config.resetPlacement with outBase := 64, outCap := 16 } } := by
  rfl

theorem witness_DecodeOfEncode :
    (Instr.backref 4095#12 15#4).wellFormed = true ∧ encode (.backref 4095#12 15#4) = .stream (.token true) [0xff#8, 0xff#8]
    ∧ Instr.rsvd.wellFormed = true ∧ encode .rsvd = .ctrl 3#32 := by decide

theorem witness_EncodeOfDecode :
    decodeStream (.token true) [0xab#8, 0xc0#8, 0x01#8] = .ok (.sentinel 0xABC#12, [0x01#8]) := by decide

theorem witness_EveryLongEnoughStreamDecodes :
    (Select.token true).length ≤ [(0x00#8 : Byte), 0x04#8].length
    ∧ [(0x00#8 : Byte)].length < (Select.token true).length := by decide

theorem witness_SentinelTestComesBeforeMatch :
    (0x1ABC0 < 2 ^ 17 ∧ 0x1ABC0 &&& 0x1000F = 0x10000)
    ∧ (0x1ABC1 < 2 ^ 17 ∧ 0x1ABC1 &&& 0x1000F ≠ 0x10000 ∧ 0x1ABC1 &&& 0x10000 = 0x10000) := by decide

theorem witness_TableWordsRoundTrip :
    (Instr.backref 4095#12 15#4).wellFormed = true ∧ encodeTableWord (.backref 4095#12 15#4) = (24, 0x1FFFF)
    ∧ (Instr.sentinel 0xABC#12).wellFormed = true ∧ encodeTableWord (.sentinel 0xABC#12) = (24, 0x1ABC0) := by decide

theorem witness_AssembledMatchDecodes :
    (4095 ≤ 4095 ∧ 2 ≤ 2 ∧ 16 ≤ 16) ∧ (4095 < 4096 ∨ 5 < 2 ∨ 16 < 5) ∧ (4095 < 0 ∨ 1 < 2 ∨ 16 < 1)
    ∧ (4095 < 0 ∨ 17 < 2 ∨ 16 < 17)
    ∧ (0 = 0 ∨ 4096 < 0 ∨ 5 < 2 ∨ 16 < 5) ∧ (4097 = 0 ∨ 4096 < 4097 ∨ 5 < 2 ∨ 16 < 5) := by decide

theorem witness_AutoCommandByteFlags :
    [Instr.lit 0#8, .backref 0#12 1#4].length ≤ 8 ∧ 1 < 8 ∧ 7 < 8 := by decide

/-- The container of 95_test_vectors.md L1-3, from the start of its DECODE. -/
theorem witness_AssembledContainerDecodesToItsExpansion :
    let tokens : List Instr := [.lit 0x41#8, .backref 0#12 4#4]
    let container : List Byte := [0x4c#8, 0x5a#8, 0x53#8, 0x53#8, 0x06#8, 0x00#8, 0x00#8, 0x00#8, 0x06#8, 0x41#8, 0x00#8, 0x04#8, 0x00#8, 0x00#8]
    let s : State := { withInput container with
      size := 6#32, status := .busy .decode, inPtr := 8#32, unseen := true }
    (∀ t ∈ tokens, t.wellFormed = true) ∧ expand [] tokens = some (List.replicate 6 0x41#8)
    ∧ container = assembleContainer s.size (tokens ++ [.sentinel 0#12])
    ∧ s.status = .busy .decode ∧ s.turns = [] ∧ s.inPtr = 8#32 ∧ s.outCount = 0#32 ∧ s.bitIdx = 0#3
    ∧ s.size.toNat = (List.replicate 6 (0x41#8 : Byte)).length ∧ 6 ≤ s.place.outCap
    ∧ s.inLen.toNat = container.length
    ∧ (∀ k, k < container.length → some (s.inByte k) = container[k]?) := by
  decide

end Sys2Proof.Tests
end

section
/-! SUPPORT. What a turn can do: one inversion lemma for each of the CTRL commands, the engine's turn and the host's turn. -/

namespace Sys2Proof.Machine

/-! ## Launches -/

@[simp] theorem State.launchRefusal_inspect_eq_none (s : State) :
    s.launchRefusal .inspect = none ↔ s.memoriesShare = false := by
  simp [State.launchRefusal]

@[simp] theorem State.launchRefusal_decode_eq_none (s : State) :
    s.launchRefusal .decode = none ↔ s.memoriesShare = false ∧ s.size.toNat ≤ s.place.outCap := by
  simp only [State.launchRefusal]
  split
  · simp_all
  · split <;> simp_all

@[simp] theorem State.launched_memoriesShare (s : State) (c : Command) :
    (s.launched c).memoriesShare = s.memoriesShare := rfl

@[simp] theorem State.decodeStarted_memoriesShare (s : State) : s.decodeStarted.memoriesShare = s.memoriesShare := rfl

/-! ## The CTRL commands -/

theorem State.status_ne_busy {s : State} (hb : s.busy = false) (c : Command) : s.status ≠ .busy c := by
  intro hs
  simp [State.busy, Status.isBusy, hs] at hb

theorem inspectStep_next {s t : State} (h : inspectStep s = .next t) :
    (∃ e, t = s.raised e) ∨ t = { s with size := s.inWord 4 }.finished := by
  simp only [inspectStep, raiseError] at h
  split at h
  · cases h
    exact .inl ⟨_, rfl⟩
  · split at h
    · cases h
      exact .inl ⟨_, rfl⟩
    · split at h
      · cases h
        exact .inl ⟨_, rfl⟩
      · cases h
        exact .inr rfl

/-- Not BUSY and with disjoint memories, INSPECT starts. -/
theorem execInspect_starts {s : State} (hb : s.busy = false) (hs : s.memoriesShare = false) :
    execInspect s = .next (s.launched .inspect) := by
  simp only [execInspect]
  split
  · exact absurd ‹_› (s.status_ne_busy hb _)
  · exact absurd ‹_› (s.status_ne_busy hb _)
  · rw [s.launchRefusal_inspect_eq_none.mpr hs]

theorem execInspect_next {s t : State} (h : execInspect s = .next t) :
    (s.status = .busy .inspect ∧ inspectStep s = .next t)
    ∨ (s.status = .busy .decode ∧ t = s)
    ∨ (s.memoriesShare = false ∧ t = s.launched .inspect) := by
  simp only [execInspect] at h
  split at h
  · exact .inl ⟨‹_›, h⟩
  · cases h
    exact .inr (.inl ⟨‹_›, rfl⟩)
  · split at h
    · cases h
    · rename_i hr
      cases h
      exact .inr (.inr ⟨s.launchRefusal_inspect_eq_none.mp hr, rfl⟩)

theorem execDecode_next {s t : State} (h : execDecode s = .next t) :
    (s.busy = true ∧ t = s)
    ∨ (s.memoriesShare = false ∧ s.size.toNat ≤ s.place.outCap ∧ t = s.decodeStarted) := by
  simp only [execDecode] at h
  split at h
  · cases h
    exact .inl ⟨‹_›, rfl⟩
  · split at h
    · cases h
    · rename_i hr
      cases h
      obtain ⟨hs, hc⟩ := s.launchRefusal_decode_eq_none.mp hr
      exact .inr ⟨hs, hc, rfl⟩

/-! ## The engine's turn -/

/-- What a decode step fetches: the command byte at IN_PTR when BIT_IDX is 0, and else a token. -/
theorem fetchItem_ok {s : State} {i : Instr} (h : fetchItem s = .ok i) :
    (s.bitIdx = 0#3 ∧ i = .cmd s.groupByte)
    ∨ (∃ d, i = .lit d) ∨ (∃ p, i = .sentinel p) ∨ ∃ p r, i = .backref p r := by
  unfold fetchItem at h
  split at h
  next j rest hj =>
    cases h
    unfold decodeStream at hj
    split at hj
    next c tail hsel hbytes =>
      cases hj
      have h0 : s.bitIdx = 0#3 := by
        by_contra h0
        simp [State.select, h0] at hsel
      refine .inl ⟨h0, ?_⟩
      simp only [hsel, Select.length, State.inBytes] at hbytes
      split at hbytes
      · cases hbytes
        simp [State.groupByte, h0]
      · cases hbytes
    next => cases hj; exact .inr (.inl ⟨_, rfl⟩)
    next =>
      split at hj
      · cases hj; exact .inr (.inr (.inl ⟨_, rfl⟩))
      · cases hj; exact .inr (.inr (.inr ⟨_, _, rfl⟩))
    next => cases hj
  next => cases h

/-- Whatever the item it fetches, a decode step ends in one of the ways of `StepEnd`, with the frame of the state it starts from. -/
theorem engineStep_decode_next {s t : State} (hs : s.status = .busy .decode) (h : engineStep s = .next t) :
    StepEnd s.frame s t := by
  simp only [engineStep, hs] at h
  split at h
  · cases h
    exact .raised _ rfl
  next i hi =>
    rcases fetchItem_ok hi with ⟨h0, rfl⟩ | ⟨d, rfl⟩ | ⟨p, rfl⟩ | ⟨p, r, rfl⟩
    · have hf : s.frame = { p := s.inPtr.toNat + 1, c := s.groupByte } := by
        simp [State.frame, State.tokenStart, h0]
      rw [hf]
      exact .of_execCmd h
    · exact .of_litBody h
    · exact .of_endBody h
    · exact .of_matchBody h

@[simp] theorem engineStep_of_not_busy {s : State} (hb : s.busy = false) : engineStep s = .next s := by
  unfold engineStep
  split
  · exact absurd ‹_› (s.status_ne_busy hb _)
  · exact absurd ‹_› (s.status_ne_busy hb _)
  all_goals rfl

/-- The ways an engine step answers a next state: none executing, the INSPECT step, a decode step. -/
theorem engineStep_next {s t : State} (h : engineStep s = .next t) :
    (s.busy = false ∧ t = s)
    ∨ (s.status = .busy .inspect ∧ ((∃ e, t = s.raised e) ∨ t = { s with size := s.inWord 4 }.finished))
    ∨ (s.status = .busy .decode ∧ StepEnd s.frame s t) := by
  cases hb : s.busy with
  | false =>
    rw [engineStep_of_not_busy hb] at h
    cases h
    exact .inl ⟨rfl, rfl⟩
  | true =>
    obtain ⟨c, hc⟩ := s.busy_iff.mp hb
    cases c with
    | inspect =>
      simp only [engineStep, hc, exec, execInspect] at h
      exact .inr (.inl ⟨hc, inspectStep_next h⟩)
    | decode => exact .inr (.inr ⟨hc, engineStep_decode_next hc h⟩)

/-! ## The host's turn -/

theorem regAccessOk_eq_true (bits : Nat) (offset : Word) :
    regAccessOk bits offset = true ↔ bits = 32 ∧ offset.toNat % 4 = 0 := by
  simp [regAccessOk]

theorem hostAct_regRead {s : State} {offset : Word} (ha : offset.toNat % 4 = 0) :
    hostAct (.regRead 32 offset) s = .next { s with
      readData := s.regValue offset
      unseen := if offset = 0x04#32 then s.unseen && s.busy else s.unseen } := by
  have hok : regAccessOk 32 offset = true := (regAccessOk_eq_true _ _).mpr ⟨rfl, ha⟩
  by_cases h4 : offset = 0x04#32
  · subst h4
    simp [hostAct, hok, State.seesCompletion]
  · simp [hostAct, hok, State.seesCompletion, h4]

/-- A read of any register but STATUS changes only what the host has read. -/
theorem hostAct_regRead_of_ne_status {s : State} {offset : Word} (ha : offset.toNat % 4 = 0) (h4 : offset ≠ 0x04#32) :
    hostAct (.regRead 32 offset) s = .next { s with readData := s.regValue offset } := by
  rw [hostAct_regRead ha, if_neg h4]

theorem hostAct_regWrite {s : State} {offset v : Word} (ha : offset.toNat % 4 = 0) :
    hostAct (.regWrite 32 offset v) s = regStore offset v s := by
  have hok : regAccessOk 32 offset = true := (regAccessOk_eq_true _ _).mpr ⟨rfl, ha⟩
  simp [hostAct, hok]

theorem regStore_busy {s : State} (hb : s.busy = true) (offset v : Word) : regStore offset v s = .next s := by
  simp [regStore, hb]

/-- Only CTRL, IN_LEN and SIZE take writes. -/
theorem regStore_ignored {offset : Word} (h0 : offset ≠ 0x00#32) (h8 : offset ≠ 0x08#32) (hC : offset ≠ 0x0C#32)
    (s : State) (v : Word) : regStore offset v s = .next s := by
  simp [regStore, h0, h8, hC]

theorem regStore_inLen {s : State} (hb : s.busy = false) (v : Word) :
    regStore 0x08#32 v s = .next { s with inLen := v } := by
  simp [regStore, hb]

theorem regStore_size {s : State} (hb : s.busy = false) (v : Word) :
    regStore 0x0C#32 v s = .next { s with size := v } := by
  simp [regStore, hb]

/-- The ways an act of the host answers a next state. -/
inductive HostEnd (act : HostAct) (s t : State) : Prop
  /-- A read, a write that is ignored, or a NOP: only what the host has seen changes, and not the completion mark while BUSY. -/
  | observed (r : Word) (u : Bool) (d : Nat) (hu : s.busy = true → u = s.unseen)
      (h : t = { s with readData := r, unseen := u, draws := d })
  | inspectStarted (w : Word) (hact : act = .regWrite 32 0x00#32 w) (hw : decodeCtrl w = .inspect)
      (hb : s.busy = false) (hs : s.memoriesShare = false) (h : t = s.launched .inspect)
  | decodeStarted (w : Word) (hact : act = .regWrite 32 0x00#32 w) (hw : decodeCtrl w = .decode)
      (hb : s.busy = false) (hs : s.memoriesShare = false) (hc : s.size.toNat ≤ s.place.outCap)
      (h : t = s.decodeStarted)
  | inLenSet (v : Word) (hb : s.busy = false) (h : t = { s with inLen := v })
  | sizeSet (v : Word) (hb : s.busy = false) (h : t = { s with size := v })
  | inStored (offset : Word) (v : Byte) (hb : s.busy = false) (h : t = s.storeIn offset.toNat v)
  | outStored (offset : Word) (v : Byte) (hb : s.busy = false) (hc : offset.toNat < s.place.outCap)
      (h : t = s.storeOut offset.toNat v)
  | outProvided (base cap : Nat) (hact : act = .provideOut base cap) (hb : s.busy = false)
      (h : t = { s with
        outMem := [], outGen := s.outGen + 1, place := { s.place with outBase := base, outCap := cap } })
  | reset (hact : act = .reset) (h : t = s.assertReset)

theorem HostEnd.unchanged (act : HostAct) (s : State) : HostEnd act s s := .observed _ _ _ (fun _ => rfl) rfl

/-- A CTRL write while not BUSY starts a command or changes nothing. -/
theorem HostEnd.of_ctrl {s t : State} {w : Word} (hb : s.busy = false) (h : exec (decodeCtrl w) s = .next t) :
    HostEnd (.regWrite 32 0x00#32 w) s t := by
  cases hw : decodeCtrl w with
  | inspect =>
    rw [hw] at h
    rcases execInspect_next h with ⟨hs, _⟩ | ⟨hs, _⟩ | ⟨hs, ht⟩
    · exact absurd hs (s.status_ne_busy hb _)
    · exact absurd hs (s.status_ne_busy hb _)
    · exact .inspectStarted w rfl hw hb hs ht
  | decode =>
    rw [hw] at h
    rcases execDecode_next h with ⟨hs, _⟩ | ⟨hs, hc, ht⟩
    · simp [hb] at hs
    · exact .decodeStarted w rfl hw hb hs hc ht
  | nop =>
    rw [hw] at h
    cases h
    exact .unchanged _ _
  | rsvd =>
    rw [hw] at h
    cases h
    exact .unchanged _ _
  | _ =>
    unfold decodeCtrl at hw
    split_ifs at hw

theorem HostEnd.of_regStore {s t : State} {offset v : Word} (h : regStore offset v s = .next t) :
    HostEnd (.regWrite 32 offset v) s t := by
  unfold regStore at h
  split at h
  · cases h
    exact .unchanged _ _
  next hb =>
    have hb : s.busy = false := by simpa using hb
    split at h
    next h0 =>
      subst h0
      exact .of_ctrl hb h
    · split at h
      · cases h
        exact .inLenSet v hb rfl
      · split at h
        · cases h
          exact .sizeSet v hb rfl
        · cases h
          exact .unchanged _ _

theorem hostAct_next {act : HostAct} {s t : State} (h : hostAct act s = .next t) : HostEnd act s t := by
  cases act with
  | regRead bits offset =>
    simp only [hostAct] at h
    split at h
    · cases h
    · cases h
      exact .observed _ _ _ (fun hb => by simp [State.seesCompletion, hb]) rfl
  | regWrite bits offset value =>
    simp only [hostAct] at h
    split at h
    · cases h
    next hok =>
      obtain ⟨rfl, _⟩ := (regAccessOk_eq_true bits offset).mp (by simpa using hok)
      exact .of_regStore h
  | inRead offset =>
    cases h
    exact .observed _ _ _ (fun _ => rfl) rfl
  | inWrite offset value =>
    simp only [hostAct] at h
    split at h
    · cases h
    next hb =>
      cases h
      exact .inStored offset value (by simpa [State.engineOwns] using hb) rfl
  | outRead offset =>
    simp only [hostAct] at h
    split at h
    · cases h
    · split at h
      · cases h
        exact .observed _ _ _ (fun _ => rfl) rfl
      · cases h
        exact .observed _ _ _ (fun _ => rfl) rfl
  | outWrite offset value =>
    simp only [hostAct] at h
    split at h
    · cases h
    next hb =>
      split at h
      · cases h
      next hc =>
        cases h
        exact .outStored offset value (by simpa [State.engineOwns] using hb) (by simpa using hc) rfl
  | provideOut base cap =>
    simp only [hostAct] at h
    split at h
    · cases h
    next hb =>
      cases h
      exact .outProvided base cap rfl (by simpa [State.engineOwns] using hb) rfl
  | reset =>
    cases h
    exact .reset rfl rfl

/-- A step is the engine's turn or one act of the host. -/
theorem step_next {s t : State} (h : step s = .next t) :
    engineStep s.turnTaken = .next t ∨ ∃ act, s.turns.head? = some (.host act) ∧ HostEnd act s.turnTaken t := by
  cases hn : s.engineNext with
  | true =>
    rw [step_engine hn] at h
    exact .inl h
  | false =>
    unfold State.engineNext at hn
    split at hn
    · cases hn
    · cases hn
    next act rest hturns =>
      rw [step_host hturns] at h
      exact .inr ⟨act, by simp [hturns], hostAct_next h⟩

end Sys2Proof.Machine
end

section
/-! SUPPORT. The invariant: the parts it is made of, and what each operation keeps of it. -/

namespace Sys2Proof.Machine

/-! ## The parts of the invariant -/

/-- Both memories are in canonical form and inside their sizes: the part of `StateInv` that no register enters. -/
structure MemoryForm (s : State) : Prop where
  inForm : Memory.wf s.inMem
  inOffsets : ∀ x ∈ s.inMem, x.1 < 2 ^ 32
  outForm : Memory.wf s.outMem
  outOffsets : ∀ x ∈ s.outMem, x.1 < s.place.outCap

theorem StateInv.memoryForm {s : State} (h : StateInv s) : MemoryForm s :=
  { h with }

/-- With no command executing, the invariant is the form of the memories and the legality of CODE. -/
theorem MemoryForm.stateInv_of_not_busy {s : State} (hm : MemoryForm s) (hb : s.busy = false)
    (hle : s.code.toNat ≤ 6) (herr : s.status = .error ↔ s.code ≠ 0#4) : StateInv s where
  inForm := hm.inForm
  inOffsets := hm.inOffsets
  outForm := hm.outForm
  outOffsets := hm.outOffsets
  codeLegal := hle
  codeError := herr
  busyUnseen := by simp [hb]
  busyDisjoint := by simp [hb]
  cursor := fun hs => absurd hs (s.status_ne_busy hb _)
  countSize := fun hs => absurd hs (s.status_ne_busy hb _)
  sizeCap := fun hs => absurd hs (s.status_ne_busy hb _)
  written := fun hs => absurd hs (s.status_ne_busy hb _)

theorem MemoryForm.storeIn {s : State} (hm : MemoryForm s) {a : Nat} (ha : a < 2 ^ 32) (v : Byte) :
    MemoryForm (s.storeIn a v) :=
  { hm with
    inForm := Memory.set_wf hm.inForm a v
    inOffsets := Memory.set_below hm.inOffsets ha v }

theorem MemoryForm.storeOut {s : State} (hm : MemoryForm s) {a : Nat} (ha : a < s.place.outCap) (v : Byte) :
    MemoryForm (s.storeOut a v) :=
  { hm with
    outForm := Memory.set_wf hm.outForm a v
    outOffsets := Memory.set_below hm.outOffsets ha v }

/-- Only an ERROR has a CODE other than 0. -/
theorem StateInv.code_eq_zero {s : State} (h : StateInv s) (hs : s.status ≠ .error) : s.code = 0#4 := by
  by_contra hc
  exact hs (h.codeError.mpr hc)

/-! ## The ends of a command, and its start -/

theorem MemoryForm.raised {s : State} (hm : MemoryForm s) (e : ErrorKind) : StateInv (s.raised e) :=
  MemoryForm.stateInv_of_not_busy { hm with } rfl e.code_le (by simp [e.code_ne_zero])

theorem MemoryForm.finished {s : State} (hm : MemoryForm s) : StateInv s.finished :=
  MemoryForm.stateInv_of_not_busy { hm with } rfl (by simp) (by simp)

theorem MemoryForm.assertReset {s : State} (hm : MemoryForm s) : StateInv s.assertReset :=
  MemoryForm.stateInv_of_not_busy { hm with } rfl (by simp) (by simp)

theorem MemoryForm.launched_inspect {s : State} (hm : MemoryForm s) (hs : s.memoriesShare = false) :
    StateInv (s.launched .inspect) :=
  { hm with
    codeLegal := by simp
    codeError := by simp
    busyUnseen := by simp
    busyDisjoint := by simp [hs]
    cursor := by simp
    countSize := by simp
    sizeCap := by simp
    written := by simp }

theorem MemoryForm.decodeStarted {s : State} (hm : MemoryForm s) (hs : s.memoriesShare = false)
    (hc : s.size.toNat ≤ s.place.outCap) : StateInv s.decodeStarted :=
  { hm with
    codeLegal := by simp
    codeError := by simp
    busyUnseen := by simp
    busyDisjoint := by simp [hs]
    cursor := by simp
    countSize := by simp
    sizeCap := by simp [hc]
    written := by simp }

/-! ## The decode step -/

/-- A number that a word bounds is kept whole in a word. -/
theorem toNat_ofNat_of_le {n : Nat} {w : Word} (h : n ≤ w.toNat) : (BitVec.ofNat 32 n).toNat = n :=
  (BitVec.toNat_ofNat n 32).trans (Nat.mod_eq_of_lt (Nat.lt_of_le_of_lt h w.isLt))

theorem State.inPtr_le_tokenStart (s : State) : s.inPtr.toNat ≤ s.tokenStart := by
  unfold State.tokenStart
  split <;> omega

/-- A token that stores its `n` bytes and goes on keeps the invariant: the output below the new OUT_COUNT is written, and IN_PTR has risen
within IN_LEN. -/
theorem StateInv.emitted_commit {s : State} (h : StateInv s) (hs : s.status = .busy .decode) {m : Memory} {n p : Nat}
    (c : Byte) (hm : MemoryForm { s with outMem := m }) (hp : s.inPtr.toNat < p) (hl : p ≤ s.inLen.toNat)
    (hn : s.outCount.toNat + n ≤ s.size.toNat)
    (hw : ∀ a < s.outCount.toNat + n, (Memory.get m a).isSome = true) :
    StateInv ((({ s with outMem := m } : State).emitted n).commit p c) :=
  have hcount : (BitVec.ofNat 32 (s.outCount.toNat + n)).toNat = s.outCount.toNat + n := toNat_ofNat_of_le hn
  { hm with
    codeLegal := h.codeLegal
    codeError := h.codeError
    busyUnseen := h.busyUnseen
    busyDisjoint := h.busyDisjoint
    cursor := fun _ => by
      have h8 := h.cursor hs
      have hptr : (BitVec.ofNat 32 p).toNat = p := toNat_ofNat_of_le hl
      simp only [State.commit_inPtr, hptr]
      exact .inr ⟨by omega, hl⟩
    countSize := fun _ => hcount.trans_le hn
    sizeCap := fun _ => h.sizeCap hs
    written := fun _ a ha => hw a (hcount ▸ ha) }

/-- A decode step keeps the invariant, however it ends. -/
theorem StepEnd.keeps_stateInv {s t : State} (e : StepEnd s.frame s t) (h : StateInv s) (hs : s.status = .busy .decode) :
    StateInv t := by
  have hptr : s.inPtr.toNat ≤ s.frame.p := s.inPtr_le_tokenStart
  rcases e with ⟨e, rfl⟩ | ⟨d, hp, hn, hc, rfl⟩ | ⟨_, _, rfl⟩ | ⟨position, rawLength, u, hp, _, hn, hu, rfl⟩
  · exact h.memoryForm.raised e
  · refine h.emitted_commit hs _ (h.memoryForm.storeOut hc d) (by omega) hp hn fun a ha => ?_
    rw [Memory.get_set]
    split
    · rfl
    next hne => exact h.written hs a (by unfold State.writeCursor at hne; omega)
  · exact MemoryForm.finished { h.memoryForm with }
  · obtain ⟨hform, hoff⟩ := copyBytes_form hu h.outForm h.outOffsets
    rw [copyBytes_frame hu]
    refine h.emitted_commit hs _ { h.memoryForm with outForm := hform, outOffsets := hoff } (by omega) hp hn
      fun a ha => ?_
    by_cases hold : a < s.writeCursor
    · rw [copyBytes_outside hu (.inl hold)]
      exact h.written hs a hold
    · exact copyBytes_writes hu (by omega) ha

/-! ## A turn -/

/-- The invariant says nothing of the turns to come, nor of what the host has seen but for the completion mark while BUSY. -/
theorem StateInv.with_host_side {s : State} (h : StateInv s) {r : Word} {u : Bool} {d : Nat} {l : List Turn}
    (hu : s.busy = true → u = true) : StateInv { s with readData := r, unseen := u, draws := d, turns := l } :=
  { h with busyUnseen := hu }

theorem StateInv.turnTaken {s : State} (h : StateInv s) : StateInv s.turnTaken := h.with_host_side h.busyUnseen

theorem engineStep_keeps_stateInv {s t : State} (h : StateInv s) (hstep : engineStep s = .next t) : StateInv t := by
  rcases engineStep_next hstep with ⟨_, rfl⟩ | ⟨_, ⟨e, rfl⟩ | rfl⟩ | ⟨hs, hend⟩
  · exact h
  · exact h.memoryForm.raised e
  · exact MemoryForm.finished { h.memoryForm with }
  · exact hend.keeps_stateInv h hs

theorem HostEnd.keeps_stateInv {act : HostAct} {s t : State} (e : HostEnd act s t) (h : StateInv s) : StateInv t := by
  have hm := h.memoryForm
  cases e with
  | observed r u d hu ht =>
    subst ht
    exact h.with_host_side fun hb => (hu hb).trans (h.busyUnseen hb)
  | inspectStarted w _ _ _ hs ht =>
    subst ht
    exact hm.launched_inspect hs
  | decodeStarted w _ _ _ hs hc ht =>
    subst ht
    exact hm.decodeStarted hs hc
  | inLenSet v hb ht =>
    subst ht
    exact MemoryForm.stateInv_of_not_busy { hm with } hb h.codeLegal h.codeError
  | sizeSet v hb ht =>
    subst ht
    exact MemoryForm.stateInv_of_not_busy { hm with } hb h.codeLegal h.codeError
  | inStored offset v hb ht =>
    subst ht
    exact (hm.storeIn offset.isLt v).stateInv_of_not_busy hb h.codeLegal h.codeError
  | outStored offset v hb hc ht =>
    subst ht
    exact (hm.storeOut hc v).stateInv_of_not_busy hb h.codeLegal h.codeError
  | outProvided base cap _ hb ht =>
    subst ht
    exact MemoryForm.stateInv_of_not_busy { hm with outForm := .nil, outOffsets := by simp } hb h.codeLegal h.codeError
  | reset _ ht =>
    subst ht
    exact hm.assertReset

theorem step_keeps_stateInv {s t : State} (h : StateInv s) (hstep : step s = .next t) : StateInv t := by
  rcases step_next hstep with he | ⟨act, _, he⟩
  · exact engineStep_keeps_stateInv h.turnTaken he
  · exact he.keeps_stateInv h.turnTaken

theorem reset_stateInv : StateInv State.reset :=
  MemoryForm.stateInv_of_not_busy ⟨.nil, by simp [State.reset], .nil, by simp [State.reset]⟩ rfl (by decide) (by decide)

/-! ## The placement -/

theorem engineStep_place {s t : State} (h : engineStep s = .next t) : t.place = s.place := by
  rcases engineStep_next h with ⟨_, rfl⟩ | ⟨_, ⟨e, rfl⟩ | rfl⟩ | ⟨_, hend⟩
  · rfl
  · rfl
  · rfl
  · obtain ⟨_, _, _, hplace, _⟩ := hend.unchanged
    exact hplace

/-- An act of the host leaves the placement, or it provides an output memory, and then only OUT_BASE and OUT_CAP change. -/
theorem HostEnd.place {act : HostAct} {s t : State} (e : HostEnd act s t) :
    t.place = s.place
    ∨ ∃ base cap, act = .provideOut base cap ∧ t.place = { s.place with outBase := base, outCap := cap } := by
  cases e with
  | outProvided base cap hact _ ht => exact .inr ⟨base, cap, hact, by rw [ht]⟩
  | observed _ _ _ _ ht => exact .inl (by rw [ht])
  | inspectStarted _ _ _ _ _ ht => exact .inl (by rw [ht]; rfl)
  | decodeStarted _ _ _ _ _ _ ht => exact .inl (by rw [ht]; rfl)
  | inLenSet _ _ ht => exact .inl (by rw [ht])
  | sizeSet _ _ ht => exact .inl (by rw [ht])
  | inStored _ _ _ ht => exact .inl (by rw [ht]; rfl)
  | outStored _ _ _ _ ht => exact .inl (by rw [ht]; rfl)
  | reset _ ht => exact .inl (by rw [ht]; rfl)

end Sys2Proof.Machine
end

section
/-! SUPPORT. The fields of the STATUS and DEBUG words, and which offsets of the register block are unmapped. -/

namespace Sys2Proof.Machine

/-- A field of a word is the bit vector of the same number. -/
theorem field_eq {x : Word} {lo n : Nat} {y : BitVec n} (h : x.toNat / 2 ^ lo % 2 ^ n = y.toNat) :
    x.extractLsb' lo n = y :=
  BitVec.eq_of_toNat_eq ((field_toNat x lo n).trans h)

theorem State.statusWord_fields (s : State) :
    s.statusWord.extractLsb' 0 2 = s.status.bits ∧ s.statusWord.extractLsb' 2 2 = 0#2
    ∧ s.statusWord.extractLsb' 4 4 = s.code ∧ s.statusWord.extractLsb' 8 24 = 0#24 := by
  have hbits := s.status.bits.isLt
  have hcode := s.code.isLt
  refine ⟨field_eq ?_, field_eq ?_, field_eq ?_, field_eq ?_⟩
  all_goals
    simp only [State.statusWord_toNat, BitVec.toNat_ofNat]
    omega

theorem State.debugWord_fields (s : State) :
    s.debugWord.extractLsb' 0 8 = s.cmd ∧ s.debugWord.extractLsb' 8 3 = s.bitIdx
    ∧ s.debugWord.extractLsb' 11 21 = 0#21 := by
  have hcmd := s.cmd.isLt
  have hidx := s.bitIdx.isLt
  refine ⟨field_eq ?_, field_eq ?_, field_eq ?_⟩
  all_goals
    simp only [State.debugWord_toNat, BitVec.toNat_ofNat]
    omega

theorem ne_of_lt_toNat {offset c : Word} (h : c.toNat < offset.toNat) : offset ≠ c := by
  rintro rfl
  exact Nat.lt_irrefl _ h

/-- Past DEBUG, the last register of the map, every offset reads 0. -/
theorem State.regValue_unmapped (s : State) {offset : Word} (h : 0x1C ≤ offset.toNat) : s.regValue offset = 0#32 := by
  have hne : ∀ c : Word, c.toNat < 0x1C → offset ≠ c := fun c hc => ne_of_lt_toNat (by omega)
  simp [State.regValue, hne]

/-- STATUS and every offset from OUT_COUNT on ignore writes. -/
theorem hostAct_regWrite_ignored {offset : Word} (ha : offset.toNat % 4 = 0)
    (h : offset.toNat = 0x04 ∨ 0x10 ≤ offset.toNat) (s : State) (v : Word) :
    hostAct (.regWrite 32 offset v) s = .next s := by
  rw [hostAct_regWrite ha]
  apply regStore_ignored <;> rintro rfl <;> simp at h

end Sys2Proof.Machine
end

section
/-! SUPPORT. The statements settled: the invariant and what it gives, the reset state, the register block, and the start of INSPECT. -/

namespace Sys2Proof.Machine

/-- Settles O42: a turn is the engine's or the host's, and the inversion lemma of each leaves the ends of a command, its start, the token that
goes on, and the host's accesses, each of which keeps the invariant. -/
theorem everyStepKeepsInv : Obligations.EveryStepKeepsInv := fun _ _ => step_keeps_stateInv

/-- Settles O46: of the ways a decode step ends only the sentinel's leaves DONE, and its test is OUT_COUNT = SIZE. -/
theorem doneMeansWholeOutputWritten : Obligations.DoneMeansWholeOutputWritten := by
  intro s t h hnext hs hstep hdone
  rw [step_engine hnext] at hstep
  rcases engineStep_decode_next (s := s.turnTaken) hs hstep with
    ⟨e, rfl⟩ | ⟨d, _, _, _, rfl⟩ | ⟨_, hcount, rfl⟩ | ⟨_, _, u, _, _, _, hu, rfl⟩
  · simp at hdone
  · simp [hs] at hdone
  · have hcount : s.outCount = s.size := hcount
    refine ⟨hcount, rfl, rfl, fun a ha => h.written hs a ?_⟩
    rw [hcount]
    exact ha
  · rw [copyBytes_frame hu] at hdone
    simp [hs] at hdone

/-- Settles O49: the engine never writes the placement, and of the host's acts only `provideOut` does. -/
theorem placementIsAParameter : Obligations.PlacementIsAParameter := by
  intro s t hstep
  rcases step_next hstep with he | ⟨act, hact, he⟩
  · have hp : t.place = s.place := engineStep_place (s := s.turnTaken) he
    simp [hp]
  · rcases he.place with hp | ⟨base, cap, rfl, hp⟩
    · simp [hp]
    · simp [hp, hact]

/-- Settles O1: the reset state lists no written byte, so a read of either memory gives the free value. -/
theorem resetRegisterValues : Obligations.ResetRegisterValues :=
  ⟨rfl, rfl, rfl, rfl, rfl, rfl, rfl, rfl, rfl, fun _ => rfl, fun _ => rfl⟩

/-- Settles O43. -/
theorem resetMeetsInv : Obligations.ResetMeetsInv := reset_stateInv

/-- Settles O4. -/
theorem statusRegisterFields : Obligations.StatusRegisterFields := by
  intro s
  obtain ⟨hstate, hlow, hcode, hhigh⟩ := s.statusWord_fields
  exact ⟨hstate, hlow, hcode, hhigh, hostAct_regWrite_ignored (by decide) (.inl rfl) s, hostAct_regRead (by decide),
    StateInv.codeLegal⟩

/-- Settles O5. -/
theorem debugRegisterFields : Obligations.DebugRegisterFields := by
  intro s
  obtain ⟨hcmd, hidx, hhigh⟩ := s.debugWord_fields
  exact ⟨hcmd, hidx, hhigh, hostAct_regWrite_ignored (by decide) (.inr (by decide)) s,
    hostAct_regRead_of_ne_status (by decide) (by decide)⟩

/-- Settles O6. -/
theorem registerMapReadsAndIgnoredWrites : Obligations.RegisterMapReadsAndIgnoredWrites := by
  intro s offset ha
  exact ⟨hostAct_regRead ha, rfl, rfl, rfl, rfl, rfl, rfl, rfl, s.regValue_unmapped,
    fun h => hostAct_regWrite_ignored ha h s⟩

/-- Settles O7. -/
theorem unmappedOffsetsReadZero : Obligations.UnmappedOffsetsReadZero := by
  intro s offset ha h
  refine ⟨?_, hostAct_regWrite_ignored ha (.inr (by omega)) s⟩
  rw [hostAct_regRead_of_ne_status ha (ne_of_lt_toNat (Nat.lt_of_lt_of_le (by decide) h)), s.regValue_unmapped h]

/-- Settles O8. -/
theorem hostSetsLengthAndSize : Obligations.HostSetsLengthAndSize := by
  intro s v
  have hlen : hostAct (.regWrite 32 0x08#32 v) s = regStore 0x08#32 v s := hostAct_regWrite (by decide)
  have hsize : hostAct (.regWrite 32 0x0C#32 v) s = regStore 0x0C#32 v s := hostAct_regWrite (by decide)
  rw [hlen, hsize]
  exact ⟨fun hb => ⟨regStore_inLen hb v, regStore_size hb v⟩, fun hb => ⟨regStore_busy hb _ v, regStore_busy hb _ v⟩,
    hostAct_regRead_of_ne_status (by decide) (by decide), hostAct_regRead_of_ne_status (by decide) (by decide)⟩

/-- Settles O9. -/
theorem registerWritesIgnoredWhileBusy : Obligations.RegisterWritesIgnoredWhileBusy := by
  intro s offset v hb ha
  rw [hostAct_regWrite ha, regStore_busy hb]

/-- Settles O10: both accesses make the one check of their form first. -/
theorem malformedRegisterAccessRefused : Obligations.MalformedRegisterAccessRefused := by
  intro s bits offset v hbad
  have hform : regAccessOk bits offset = false := by
    rw [Bool.eq_false_iff, ne_eq, regAccessOk_eq_true]
    tauto
  simp [hostAct, hform]

/-- Settles O18: the start of INSPECT is `launched`, written out in the statement. -/
theorem inspectStart : Obligations.InspectStart := fun _ => execInspect_starts

end Sys2Proof.Machine
end

section
/-! SUPPORT. The host's read of STATUS and its byte accesses to the two memories: what each answers, and read after write. -/

namespace Sys2Proof.Machine

/-- A read of STATUS that shows `STATE ≠ BUSY` clears the completion mark (70_reset_and_hazards.md R176). -/
theorem hostAct_statusRead {s : State} (hb : s.busy = false) :
    hostAct (.regRead 32 0x04#32) s = .next { s with readData := s.statusWord, unseen := false } := by
  rw [hostAct_regRead (by decide), if_pos rfl, hb, Bool.and_false]
  rfl

@[simp] theorem State.storeIn_inByte_same (s : State) (a : Nat) (v : Byte) : (s.storeIn a v).inByte a = v := by
  simp [State.inByte]

theorem State.storeIn_inByte_other (s : State) {a b : Nat} (v : Byte) (h : b ≠ a) :
    (s.storeIn a v).inByte b = s.inByte b := by
  simp [State.inByte, Memory.get_set_other _ _ h]

theorem State.outputUnsettled_eq_true (s : State) :
    s.outputUnsettled = true ↔ s.busy = true ∨ s.unseen = true := by
  simp [State.outputUnsettled, State.engineOwns, or_comm]

/-- A read of the output before the host has seen the command's end draws a free value (20_memory.md R62). -/
theorem hostAct_outRead_unsettled {s : State} {offset : Word} (hu : s.busy = true ∨ s.unseen = true)
    (hc : offset.toNat < s.place.outCap) :
    hostAct (.outRead offset) s
      = .next { s with readData := (Config.unseenOutRead s.draws).setWidth 32, draws := s.draws + 1 } := by
  have hhas : s.outHas offset.toNat = true := (s.outHas_eq_true _).mpr hc
  have hfree : s.outputUnsettled = true := s.outputUnsettled_eq_true.mpr hu
  simp [hostAct, hhas, hfree]

/-- A read of the output once the host has seen the command's end returns the byte held. -/
theorem hostAct_outRead_settled {s : State} {offset : Word} (hb : s.busy = false) (hu : s.unseen = false)
    (hc : offset.toNat < s.place.outCap) :
    hostAct (.outRead offset) s = .next { s with readData := (s.outByte offset.toNat).setWidth 32 } := by
  have hhas : s.outHas offset.toNat = true := (s.outHas_eq_true _).mpr hc
  have hsettled : s.outputUnsettled = false := by simp [State.outputUnsettled, State.engineOwns, hb, hu]
  simp [hostAct, hhas, hsettled]

theorem hostAct_inWrite {s : State} (hb : s.busy = false) (offset : Word) (v : Byte) :
    hostAct (.inWrite offset v) s = .next (s.storeIn offset.toNat v) := by
  simp [hostAct, State.engineOwns, hb]

theorem hostAct_outWrite {s : State} {offset : Word} (hb : s.busy = false) (hc : offset.toNat < s.place.outCap)
    (v : Byte) : hostAct (.outWrite offset v) s = .next (s.storeOut offset.toNat v) := by
  have hhas : s.outHas offset.toNat = true := (s.outHas_eq_true _).mpr hc
  simp [hostAct, State.engineOwns, hb, hhas]

end Sys2Proof.Machine
end

section
/-! SUPPORT. The engine and the output memory: which bytes a decode step can change, and why the engine's turn never leaves a memory. -/

namespace Sys2Proof.Machine

/-! ## The bytes a decode step can change -/

theorem copyBytes_outByte_outside {n src dst : Nat} {s t : State} (h : copyBytes n src dst s = .ok t) {a : Nat}
    (ha : a < dst ∨ dst + n ≤ a) : t.outByte a = s.outByte a := by
  have hgen : t.outGen = s.outGen := by rw [copyBytes_frame h]
  simp only [State.outByte, copyBytes_outside h ha, hgen]

theorem emitted_outCount_toNat {s : State} {n : Nat} (h : s.outCount.toNat + n ≤ s.size.toNat) :
    (s.emitted n).outCount.toNat = s.outCount.toNat + n :=
  toNat_ofNat_of_le h

/-- However it ends, a decode step moves OUT_COUNT up within SIZE, and changes no output byte but those it passes. -/
theorem StepEnd.output {fr : Frame} {s t : State} (e : StepEnd fr s t) (h : s.outCount.toNat ≤ s.size.toNat) :
    s.outCount.toNat ≤ t.outCount.toNat ∧ t.outCount.toNat ≤ s.size.toNat
      ∧ ∀ a, a < s.outCount.toNat ∨ t.outCount.toNat ≤ a → t.outByte a = s.outByte a := by
  rcases e with ⟨e, rfl⟩ | ⟨d, _, hn, _, rfl⟩ | ⟨_, _, rfl⟩ | ⟨position, rawLength, u, _, _, hn, hu, rfl⟩
  · exact ⟨le_rfl, h, fun _ _ => rfl⟩
  · have hcount := emitted_outCount_toNat (s := s.storeOut s.writeCursor d) hn
    simp only [State.storeOut_outCount] at hcount
    simp only [State.commit_outCount, State.commit_outByte, State.emitted_outByte, hcount]
    refine ⟨by omega, hn, fun a ha => s.storeOut_outByte_other d ?_⟩
    unfold State.writeCursor
    omega
  · exact ⟨le_rfl, h, fun _ _ => rfl⟩
  · have hframe := copyBytes_frame hu
    have hcount : (u.emitted (matchLength rawLength)).outCount.toNat = s.outCount.toNat + matchLength rawLength := by
      rw [hframe]
      exact emitted_outCount_toNat (s := { s with outMem := u.outMem }) hn
    simp only [State.commit_outCount, State.commit_outByte, State.emitted_outByte, hcount]
    exact ⟨by omega, hn, fun a ha => copyBytes_outByte_outside hu ha⟩

/-! ## The engine's turn always completes -/

theorem raiseError_completes (e : ErrorKind) (s : State) : ∃ t, raiseError e s = .next t := ⟨_, rfl⟩

/-- The room below SIZE is room in the output memory. -/
theorem litBody_completes {s : State} (hc : s.size.toNat ≤ s.place.outCap) (fr : Frame) (d : Byte) :
    ∃ t, litBody fr d s = .next t := by
  unfold litBody
  split
  · exact raiseError_completes _ s
  · split
    · exact raiseError_completes _ s
    next hroom =>
      have hn : s.outCount.toNat + 1 ≤ s.size.toNat := by simpa using hroom
      have hhas : s.outHas s.writeCursor = true := by
        rw [State.outHas_eq_true, State.writeCursor]
        omega
      simp [hhas]

theorem endBody_completes (fr : Frame) (s : State) : ∃ t, endBody fr s = .next t := by
  unfold endBody
  split
  · exact raiseError_completes _ s
  · split
    · exact raiseError_completes _ s
    · exact ⟨_, rfl⟩

/-- The copy reads below OUT_COUNT and writes below SIZE, so both are in the output memory. -/
theorem matchBody_completes {s : State} (hc : s.size.toNat ≤ s.place.outCap) (fr : Frame) (position : BitVec 12)
    (rawLength : BitVec 4) : ∃ t, matchBody fr position rawLength s = .next t := by
  unfold matchBody
  split
  · exact raiseError_completes _ s
  · split
    · exact raiseError_completes _ s
    next hdist =>
      split
      · exact raiseError_completes _ s
      next hroom =>
        have hn : s.writeCursor + matchLength rawLength ≤ s.size.toNat := by simpa [State.writeCursor] using hroom
        have hsrc : s.matchSource position ≤ s.writeCursor := Nat.sub_le _ _
        obtain ⟨u, hu⟩ := copyBytes_completes (n := matchLength rawLength) (src := s.matchSource position)
          (dst := s.writeCursor) (s := s) (by omega) (by omega)
        rw [hu]
        exact ⟨_, rfl⟩

theorem tokenStep_completes {s : State} (hc : s.size.toNat ≤ s.place.outCap) (fr : Frame) :
    ∃ t, tokenStep fr s = .next t := by
  unfold tokenStep
  split
  · exact litBody_completes hc fr _
  · split
    · exact raiseError_completes _ s
    · split
      · exact endBody_completes fr s
      · exact matchBody_completes hc fr _ _

theorem execCmd_completes {s : State} (hc : s.size.toNat ≤ s.place.outCap) (c : Byte) :
    ∃ t, execCmd c s = .next t := by
  unfold execCmd
  split
  · exact raiseError_completes _ s
  · exact tokenStep_completes hc _

theorem inspectStep_completes (s : State) : ∃ t, inspectStep s = .next t := by
  unfold inspectStep
  split
  · exact raiseError_completes _ s
  · split
    · exact raiseError_completes _ s
    · split
      · exact raiseError_completes _ s
      · exact ⟨_, rfl⟩

/-- A decode step completes where the output memory has `SIZE` bytes, whatever the item it fetches. -/
theorem engineStep_decode_completes {s : State} (hs : s.status = .busy .decode) (hc : s.size.toNat ≤ s.place.outCap) :
    ∃ t, engineStep s = .next t := by
  simp only [engineStep, hs]
  split
  · exact raiseError_completes _ s
  next i hi =>
    rcases fetchItem_ok hi with ⟨_, rfl⟩ | ⟨d, rfl⟩ | ⟨p, rfl⟩ | ⟨p, r, rfl⟩
    · exact execCmd_completes hc _
    · exact litBody_completes hc _ d
    · exact endBody_completes _ s
    · exact matchBody_completes hc _ p r

/-- The engine's turn completes if the output memory has `SIZE` bytes while a DECODE is executing (70_reset_and_hazards.md R175). -/
theorem engineStep_completes {s : State} (hc : s.status = .busy .decode → s.size.toNat ≤ s.place.outCap) :
    ∃ t, engineStep s = .next t := by
  cases hb : s.busy with
  | false => exact ⟨s, engineStep_of_not_busy hb⟩
  | true =>
    obtain ⟨c, hs⟩ := s.busy_iff.mp hb
    cases c with
    | inspect =>
      simp only [engineStep, hs, exec, execInspect]
      exact inspectStep_completes s
    | decode => exact engineStep_decode_completes hs (hc hs)

end Sys2Proof.Machine
end

section
/-! SUPPORT. The statements settled: the output a decode step writes, the engine that never stops, and the host's byte accesses. -/

namespace Sys2Proof.Machine

/-- Settles O40: each way a decode step ends writes only the bytes OUT_COUNT passes, and leaves the input and the host's side. -/
theorem decodeStepWritesOnlyNewOutput : Obligations.DecodeStepWritesOnlyNewOutput := by
  intro s t hnext hs hsize hstep
  rw [step_engine hnext] at hstep
  have hend := engineStep_decode_next (s := s.turnTaken) hs hstep
  obtain ⟨hge, hle, hbytes⟩ := hend.output hsize
  obtain ⟨hinMem, hinLen, hsz, hplace, hunseen, _, hread, hgen, hdraws⟩ := hend.unchanged
  exact ⟨hge, hle, hbytes, hinMem, hinLen, hsz, hplace, hunseen, hread, hgen, hdraws⟩

/-- Settles O44: of the invariant it needs only that SIZE is at most OUT_CAP while a DECODE is executing. -/
theorem engineNeverStops : Obligations.EngineNeverStops := by
  intro s h hnext
  rw [step_engine hnext]
  exact engineStep_completes h.turnTaken.sizeCap

/-- Settles O15: the read of STATUS clears the completion mark, so the read behind it finds the output settled. -/
theorem outputVisibleAfterCompletionRead : Obligations.OutputVisibleAfterCompletionRead := by
  intro s offset rest hb hc hturns
  have hstatus := (step_host hturns).trans (hostAct_statusRead (s := s.turnTaken) hb)
  have hnext : s.turnTaken.turns = .host (.outRead offset) :: rest := congrArg List.tail hturns
  have hout := (step_host (s := { s.turnTaken with readData := s.statusWord, unseen := false }) hnext).trans
    (hostAct_outRead_settled hb rfl hc)
  exact ⟨_, _, hstatus, rfl, rfl, hout, rfl, rfl, congrArg List.tail hnext⟩

/-- Settles O16. -/
theorem outputReadWhileOwnedIsFree : Obligations.OutputReadWhileOwnedIsFree := fun _ _ => hostAct_outRead_unsettled

/-- Settles O17: a write is one store, and a store is read back at its own offset and nowhere else. -/
theorem hostMemoryAccess : Obligations.HostMemoryAccess := by
  intro s offset v
  refine ⟨fun hb => ?_, fun hb hc => ?_, rfl, hostAct_outRead_settled⟩
  · exact ⟨_, hostAct_inWrite hb offset v, rfl, s.storeIn_inByte_same _ v, fun _ => s.storeIn_inByte_other v⟩
  · exact ⟨_, hostAct_outWrite hb hc v, rfl, s.storeOut_outByte_same _ v, fun _ => s.storeOut_outByte_other v⟩

end Sys2Proof.Machine
end

section
/-! SUPPORT. The decoder and the encoder undo each other: the fields of a flag-1 token, the stream formats, the CTRL word, the header. -/

namespace Sys2Proof

/-! ## The fields of a flag-1 token -/

@[simp] theorem positionOf_tokenBytes (position : BitVec 12) (rawLength : BitVec 4) :
    positionOf (position.extractLsb' 4 8) (position.extractLsb' 0 4 ++ rawLength) = position := by
  apply BitVec.eq_of_toNat_eq
  have hp := position.isLt
  have hr := rawLength.isLt
  simp only [positionOf_toNat, append_toNat, field_toNat]
  omega

@[simp] theorem rawLengthOf_tokenBytes (position : BitVec 12) (rawLength : BitVec 4) :
    rawLengthOf (position.extractLsb' 0 4 ++ rawLength) = rawLength := by
  apply BitVec.eq_of_toNat_eq
  have hr := rawLength.isLt
  simp only [rawLengthOf_toNat, append_toNat]
  omega

/-- `zext12((b0 << 4) | (b1 >> 4))` (30_encoding.md R75). -/
theorem positionOf_eq_shift_or (b0 b1 : Byte) :
    positionOf b0 b1 = (b0.setWidth 12 <<< 4) ||| (b1 >>> 4).setWidth 12 := by
  apply BitVec.eq_of_toNat_eq
  have h0 := b0.isLt
  have h1 := b1.isLt
  have hhigh : (b0.setWidth 12 <<< 4).toNat = b0.toNat <<< 4 := by
    rw [BitVec.toNat_shiftLeft, BitVec.toNat_setWidth, Nat.shiftLeft_eq, Nat.shiftLeft_eq]
    omega
  have hlow : ((b1 >>> 4).setWidth 12).toNat = b1.toNat / 16 := by
    rw [BitVec.toNat_setWidth, BitVec.toNat_ushiftRight, Nat.shiftRight_eq_div_pow]
    omega
  rw [positionOf_toNat, BitVec.toNat_or, hhigh, hlow, ← Nat.shiftLeft_add_eq_or_of_lt (by omega), Nat.shiftLeft_eq]

/-- `b1 & 0x0F` (30_encoding.md R75). -/
theorem rawLengthOf_eq_and (b1 : Byte) : rawLengthOf b1 = (b1 &&& 0x0F#8).setWidth 4 := by
  apply BitVec.eq_of_toNat_eq
  have hand : b1.toNat &&& 0x0F = b1.toNat % 16 := Nat.and_two_pow_sub_one_eq_mod b1.toNat 4
  rw [rawLengthOf_toNat, BitVec.toNat_setWidth, BitVec.toNat_and, BitVec.toNat_ofNat]
  simp [hand]

/-- The two bytes of a flag-1 token are the encoding of its fields. -/
theorem tokenBytes_of_fields (b0 b1 : Byte) : tokenBytes (positionOf b0 b1) (rawLengthOf b1) = [b0, b1] := by
  have h0 := b0.isLt
  have h1 := b1.isLt
  have hfst : (positionOf b0 b1).extractLsb' 4 8 = b0 := by
    apply BitVec.eq_of_toNat_eq
    rw [field_toNat, positionOf_toNat]
    omega
  have hsnd : (positionOf b0 b1).extractLsb' 0 4 ++ rawLengthOf b1 = b1 := by
    apply BitVec.eq_of_toNat_eq
    rw [append_toNat, field_toNat, positionOf_toNat, rawLengthOf_toNat]
    omega
  rw [tokenBytes, hfst, hsnd]

/-! ## The stream formats -/

@[simp] theorem decodeStream_command_cons (c : Byte) (rest : List Byte) :
    decodeStream .command (c :: rest) = .ok (.cmd c, rest) := rfl

@[simp] theorem decodeStream_literal_cons (d : Byte) (rest : List Byte) :
    decodeStream (.token false) (d :: rest) = .ok (.lit d, rest) := rfl

theorem decodeStream_sentinel {b0 b1 : Byte} (h : rawLengthOf b1 = 0#4) (rest : List Byte) :
    decodeStream (.token true) (b0 :: b1 :: rest) = .ok (.sentinel (positionOf b0 b1), rest) :=
  if_pos h

theorem decodeStream_backref {b0 b1 : Byte} (h : rawLengthOf b1 ≠ 0#4) (rest : List Byte) :
    decodeStream (.token true) (b0 :: b1 :: rest) = .ok (.backref (positionOf b0 b1) (rawLengthOf b1), rest) :=
  if_neg h

/-- The ways a byte list decodes, one for each item of the stream. -/
theorem decodeStream_ok {sel : Select} {bytes rest : List Byte} {i : Instr} (h : decodeStream sel bytes = .ok (i, rest)) :
    (∃ c, sel = .command ∧ bytes = c :: rest ∧ i = .cmd c)
    ∨ (∃ d, sel = .token false ∧ bytes = d :: rest ∧ i = .lit d)
    ∨ (∃ b0 b1, sel = .token true ∧ bytes = b0 :: b1 :: rest ∧ rawLengthOf b1 = 0#4 ∧ i = .sentinel (positionOf b0 b1))
    ∨ (∃ b0 b1, sel = .token true ∧ bytes = b0 :: b1 :: rest ∧ rawLengthOf b1 ≠ 0#4
        ∧ i = .backref (positionOf b0 b1) (rawLengthOf b1)) := by
  unfold decodeStream at h
  split at h
  next c tail =>
    cases h
    exact .inl ⟨c, rfl, rfl, rfl⟩
  next d tail =>
    cases h
    exact .inr (.inl ⟨d, rfl, rfl, rfl⟩)
  next b0 b1 tail =>
    split at h
    next hr =>
      cases h
      exact .inr (.inr (.inl ⟨b0, b1, rfl, rfl, hr, rfl⟩))
    next hr =>
      cases h
      exact .inr (.inr (.inr ⟨b0, b1, rfl, rfl, hr, rfl⟩))
  next => cases h

theorem Instr.wellFormed_backref (position : BitVec 12) (rawLength : BitVec 4) :
    (Instr.backref position rawLength).wellFormed = true ↔ rawLength ≠ 0#4 := bne_iff_ne

/-- Decoding undoes encoding, in the stream, whatever bytes follow. -/
theorem decodeStream_encode {i : Instr} {sel : Select} {bytes : List Byte} (hw : i.wellFormed = true)
    (he : encode i = .stream sel bytes) (rest : List Byte) : decodeStream sel (bytes ++ rest) = .ok (i, rest) := by
  cases i with
  | cmd c => cases he; rfl
  | lit d => cases he; rfl
  | sentinel position =>
    cases he
    refine (decodeStream_sentinel (rawLengthOf_tokenBytes position 0#4) rest).trans ?_
    rw [positionOf_tokenBytes]
  | backref position rawLength =>
    cases he
    have hr : rawLength ≠ 0#4 := (Instr.wellFormed_backref position rawLength).mp hw
    refine (decodeStream_backref (by rwa [rawLengthOf_tokenBytes]) rest).trans ?_
    rw [positionOf_tokenBytes, rawLengthOf_tokenBytes]
  | nop => cases he
  | inspect => cases he
  | decode => cases he
  | rsvd => cases he

/-- Decoding undoes encoding, for a CTRL word. -/
theorem decodeCtrl_encode {i : Instr} {w : Word} (he : encode i = .ctrl w) : decodeCtrl w = i := by
  cases i <;> cases he <;> rfl

theorem Select.length_le (sel : Select) : sel.length ≤ 2 := by
  rcases sel with _ | ⟨_ | _⟩ <;> decide

theorem Select.length_pos (sel : Select) : 0 < sel.length := by
  rcases sel with _ | ⟨_ | _⟩ <;> decide

theorem encode_length {i : Instr} {sel : Select} {bytes : List Byte} (he : encode i = .stream sel bytes) :
    bytes.length = sel.length := by
  cases i <;> cases he <;> rfl

/-- Both decoders at once: an encoding decodes to its instruction, with no bytes left over. -/
theorem decode_encode {i : Instr} (hw : i.wellFormed = true) : decode (encode i) = .ok (i, []) := by
  cases he : encode i with
  | stream sel bytes => simpa [decode] using decodeStream_encode hw he []
  | ctrl w => simp [decode, decodeCtrl_encode he]

/-- Encoding undoes decoding, in the stream. -/
theorem encode_decodeStream {sel : Select} {bytes rest : List Byte} {i : Instr} (h : decodeStream sel bytes = .ok (i, rest)) :
    i.wellFormed = true ∧ ∃ used, encode i = .stream sel used ∧ bytes = used ++ rest := by
  rcases decodeStream_ok h with ⟨c, rfl, rfl, rfl⟩ | ⟨d, rfl, rfl, rfl⟩ | ⟨b0, b1, rfl, rfl, hr, rfl⟩
    | ⟨b0, b1, rfl, rfl, hr, rfl⟩
  · exact ⟨rfl, [c], rfl, rfl⟩
  · exact ⟨rfl, [d], rfl, rfl⟩
  · refine ⟨rfl, [b0, b1], ?_, rfl⟩
    rw [encode, ← hr, tokenBytes_of_fields]
  · refine ⟨(Instr.wellFormed_backref _ _).mpr hr, [b0, b1], ?_, rfl⟩
    rw [encode, tokenBytes_of_fields]

/-- A byte list that is long enough decodes, and uses the bytes of its format. -/
theorem decodeStream_of_length_le {sel : Select} {bytes : List Byte} (h : sel.length ≤ bytes.length) :
    ∃ i, decodeStream sel bytes = .ok (i, bytes.drop sel.length) := by
  match sel, bytes, h with
  | .command, c :: rest, _ => exact ⟨_, rfl⟩
  | .token false, d :: rest, _ => exact ⟨_, rfl⟩
  | .token true, b0 :: b1 :: rest, _ =>
    by_cases hr : rawLengthOf b1 = 0#4
    · exact ⟨_, decodeStream_sentinel hr rest⟩
    · exact ⟨_, decodeStream_backref hr rest⟩

theorem decodeStream_of_length_lt {sel : Select} {bytes : List Byte} (h : bytes.length < sel.length) :
    decodeStream sel bytes = .error .missingBytes := by
  match sel, bytes, h with
  | .command, [], _ => rfl
  | .token false, [], _ => rfl
  | .token true, [], _ => rfl
  | .token true, [b0], _ => rfl

/-! ## The CTRL word -/

theorem decodeCtrl_congr {w v : Word} (h : w.extractLsb' 0 2 = v.extractLsb' 0 2) : decodeCtrl w = decodeCtrl v := by
  simp only [decodeCtrl, h]

/-- The command that each value of OP spells (30_encoding.md R77). -/
theorem decodeCtrl_of_op (w : Word) :
    (w.extractLsb' 0 2 = 0b00#2 → decodeCtrl w = .nop)
    ∧ (w.extractLsb' 0 2 = 0b01#2 → decodeCtrl w = .inspect)
    ∧ (w.extractLsb' 0 2 = 0b10#2 → decodeCtrl w = .decode)
    ∧ (w.extractLsb' 0 2 = 0b11#2 → decodeCtrl w = .rsvd) := by
  refine ⟨fun h => ?_, fun h => ?_, fun h => ?_, fun h => ?_⟩ <;> simp [decodeCtrl, h]

/-! ## The header -/

/-- The four bytes of a word, read back little-endian, are the word. -/
@[simp] theorem le32_byteOf (w : Word) : le32 (byteOf w 0) (byteOf w 1) (byteOf w 2) (byteOf w 3) = w := by
  apply BitVec.eq_of_toNat_eq
  have hw := w.isLt
  simp only [le32_toNat, byteOf, field_toNat]
  omega

/-- Bytes 0 to 3 of an encoded header are the magic's. -/
theorem encodeHeader_getElem_magic (m size : Word) {k : Nat} (hk : k < 4) :
    (encodeHeader m size)[k]? = some (byteOf m k) := by
  match k, hk with
  | 0, _ | 1, _ | 2, _ | 3, _ => rfl

/-- Bytes 4 to 7 of an encoded header are the size's. -/
theorem encodeHeader_getElem_size (m size : Word) {k : Nat} (hk : k < 4) :
    (encodeHeader m size)[4 + k]? = some (byteOf size k) := by
  match k, hk with
  | 0, _ | 1, _ | 2, _ | 3, _ => rfl

/-! ## The table words -/

/-- A word of 24 bits with its flag bit set is a flag-1 token, b0 above b1 (30_encoding.md R78). -/
theorem tableCode_token {w : Nat} (h : w / 2 ^ 16 = 1) :
    tableCode 24 w = some (.stream (.token true) [BitVec.ofNat 8 (w / 2 ^ 8), BitVec.ofNat 8 w]) := by
  have h' : w / 65536 = 1 := h
  simp [tableCode, h']

/-- The table word of a flag-1 token holds its two bytes. -/
theorem tableCode_tokenBytes (position : BitVec 12) (rawLength : BitVec 4) :
    tableCode 24 (2 ^ 16 + position.toNat * 2 ^ 4 + rawLength.toNat)
      = some (.stream (.token true) (tokenBytes position rawLength)) := by
  have hp := position.isLt
  have hr := rawLength.isLt
  rw [tableCode_token (by omega)]
  have hfst : BitVec.ofNat 8 ((2 ^ 16 + position.toNat * 2 ^ 4 + rawLength.toNat) / 2 ^ 8) = position.extractLsb' 4 8 := by
    apply BitVec.eq_of_toNat_eq
    rw [BitVec.toNat_ofNat, field_toNat]
    omega
  have hsnd : BitVec.ofNat 8 (2 ^ 16 + position.toNat * 2 ^ 4 + rawLength.toNat)
      = position.extractLsb' 0 4 ++ rawLength := by
    apply BitVec.eq_of_toNat_eq
    rw [BitVec.toNat_ofNat, append_toNat, field_toNat]
    omega
  rw [hfst, hsnd, tokenBytes]

/-- The table word of an instruction holds its encoding. -/
theorem tableCode_encodeTableWord (i : Instr) : tableCode (encodeTableWord i).1 (encodeTableWord i).2 = some (encode i) := by
  cases i with
  | cmd c => simp [encodeTableWord, tableCode, encode]
  | lit d =>
    have hd : d.toNat < 256 := d.isLt
    simp [encodeTableWord, tableCode, encode, hd]
  | sentinel position => exact tableCode_tokenBytes position 0#4
  | backref position rawLength => exact tableCode_tokenBytes position rawLength
  | nop => rfl
  | inspect => rfl
  | decode => rfl
  | rsvd => rfl

theorem decodeTableWord_eq_some {nbits w : Nat} {i : Instr} :
    decodeTableWord nbits w = some i ↔ ∃ code rest, tableCode nbits w = some code ∧ decode code = .ok (i, rest) := by
  unfold decodeTableWord
  cases tableCode nbits w with
  | none => simp
  | some code =>
    cases hd : decode code with
    | error r => simp [hd]
    | ok p => obtain ⟨j, rest⟩ := p; simp [hd]

/-- The bytes of a table word are as many as its format has. -/
theorem tableCode_length {nbits w : Nat} {sel : Select} {bytes : List Byte} (h : tableCode nbits w = some (.stream sel bytes)) :
    bytes.length = sel.length := by
  unfold tableCode at h
  split_ifs at h <;> cases h <;> rfl

/-- The fixed bit of a MATCH row is bit 16. -/
theorem and_flagMask {tw : Nat} (h : tw < 2 ^ 17) : tw &&& 0x10000 = tw / 2 ^ 16 * 2 ^ 16 := by
  have hbit : (tw.testBit 16).toNat = tw / 2 ^ 16 := by
    rw [Nat.toNat_testBit, Nat.mod_eq_of_lt (by omega)]
  rw [← hbit]
  exact Nat.and_two_pow tw 16

/-- The SENTINEL test reads the flag bit and the low four bits. -/
theorem and_sentinelMask {tw : Nat} (h : tw < 2 ^ 17) : tw &&& 0x1000F = tw / 2 ^ 16 * 2 ^ 16 + tw % 16 := by
  have hsplit : tw &&& 0x1000F = (tw &&& 0x10000) ||| (tw &&& 0xF) := Nat.and_or_distrib_left tw 0x10000 0xF
  have hlow : tw &&& 0xF = tw % 16 := Nat.and_two_pow_sub_one_eq_mod tw 4
  rw [hsplit, hlow, and_flagMask h, Nat.mul_comm, Nat.two_pow_add_eq_or_of_lt (by omega)]

theorem rawLengthOf_ofNat_eq_zero (tw : Nat) : rawLengthOf (BitVec.ofNat 8 tw) = 0#4 ↔ tw % 16 = 0 := by
  rw [← BitVec.toNat_inj, rawLengthOf_toNat, BitVec.toNat_ofNat, BitVec.toNat_ofNat]
  omega

end Sys2Proof
end

section
/-! SUPPORT. The fetch: which bytes the container holds from an offset on, and the item that the engine's turn runs where they stand. -/

namespace Sys2Proof.Machine

/-! ## Bytes that stand in the container -/

/-- The container holds these bytes from offset `p` on, all of them below IN_LEN. -/
def State.holdsAt (s : State) (p : Nat) (bytes : List Byte) : Prop := s.inBytes bytes.length p = bytes

@[simp] theorem State.holdsAt_nil (s : State) (p : Nat) : s.holdsAt p [] := rfl

theorem State.holdsAt_cons {s : State} {p : Nat} {b : Byte} {rest : List Byte} :
    s.holdsAt p (b :: rest) ↔ p < s.inLen.toNat ∧ s.inByte p = b ∧ s.holdsAt (p + 1) rest := by
  simp only [State.holdsAt, List.length_cons, State.inBytes]
  split
  next hp => simp [hp]
  next hp => simp [hp]

theorem State.holdsAt_append {s : State} {p : Nat} {front back : List Byte} :
    s.holdsAt p (front ++ back) ↔ s.holdsAt p front ∧ s.holdsAt (p + front.length) back := by
  induction front generalizing p with
  | nil => simp
  | cons b front ih =>
    rw [List.cons_append, State.holdsAt_cons, State.holdsAt_cons, ih, List.length_cons, Nat.add_assoc,
      Nat.add_comm 1]
    tauto

theorem State.holdsAt_congr {s t : State} (hlen : t.inLen = s.inLen) (hmem : t.inMem = s.inMem) {p : Nat}
    {bytes : List Byte} : t.holdsAt p bytes ↔ s.holdsAt p bytes := by
  rw [State.holdsAt, State.holdsAt, inBytes_congr hlen hmem]

/-- Bytes that stand at their offsets one by one, below IN_LEN, are held. -/
theorem State.holdsAt_of_forall {s : State} {p : Nat} {bytes : List Byte} (hlen : p + bytes.length ≤ s.inLen.toNat)
    (h : ∀ k, k < bytes.length → some (s.inByte (p + k)) = bytes[k]?) : s.holdsAt p bytes := by
  induction bytes generalizing p with
  | nil => exact s.holdsAt_nil p
  | cons b rest ih =>
    rw [List.length_cons] at hlen h
    refine State.holdsAt_cons.mpr ⟨by omega, by simpa using h 0 (by omega), ih (by omega) fun k hk => ?_⟩
    have hk1 := h (k + 1) (by omega)
    rwa [List.getElem?_cons_succ, Nat.add_comm k, ← Nat.add_assoc] at hk1

theorem State.holdsAt_byte {s : State} {p : Nat} (h : p + 1 ≤ s.inLen.toNat) : s.holdsAt p [s.inByte p] :=
  State.holdsAt_cons.mpr ⟨h, rfl, s.holdsAt_nil _⟩

theorem State.holdsAt_two_bytes {s : State} {p : Nat} (h : p + 2 ≤ s.inLen.toNat) :
    s.holdsAt p [s.inByte p, s.inByte (p + 1)] :=
  State.holdsAt_cons.mpr ⟨by omega, rfl, State.holdsAt_byte h⟩

/-- Past IN_LEN there are no bytes to fetch. -/
theorem State.inBytes_length_lt {s : State} {n p : Nat} (h : s.inLen.toNat < p + n) (hn : 0 < n) :
    (s.inBytes n p).length < n := by
  induction n generalizing p with
  | zero => omega
  | succ n ih =>
    rw [State.inBytes]
    split
    next hp =>
      have hrest := ih (p := p + 1) (by omega) (by omega)
      rw [List.length_cons]
      omega
    next hp => exact Nat.succ_pos n

/-! ## The item fetched -/

/-- Where the bytes at IN_PTR decode under the selector, the decode step is exec of their item. -/
theorem engineStep_of_decodes {s : State} {bytes rest : List Byte} {i : Instr} (hs : s.status = .busy .decode)
    (hlen : bytes.length = s.select.length) (hbytes : s.holdsAt s.inPtr.toNat bytes)
    (hd : decodeStream s.select bytes = .ok (i, rest)) : engineStep s = exec i s := by
  have hfetch : fetchItem s = .ok i := by rw [fetchItem, ← hlen, hbytes, hd]
  rw [engineStep, hs]
  simp only [hfetch]

/-- Where bytes of the item are missing, the decode step is TruncatedInput (41_dispatch.md R103). -/
theorem engineStep_of_missing {s : State} (hs : s.status = .busy .decode)
    (h : s.inLen.toNat < s.inPtr.toNat + s.select.length) : engineStep s = raiseError .truncatedInput s := by
  have hfetch : fetchItem s = .error .missingBytes := by
    rw [fetchItem, decodeStream_of_length_lt (State.inBytes_length_lt h s.select.length_pos)]
  rw [engineStep, hs]
  simp only [hfetch]

theorem step_of_decodes {s : State} {bytes rest : List Byte} {i : Instr} (hnext : s.engineNext = true)
    (hs : s.status = .busy .decode) (hlen : bytes.length = s.select.length) (hbytes : s.holdsAt s.inPtr.toNat bytes)
    (hd : decodeStream s.select bytes = .ok (i, rest)) : step s = exec i s.turnTaken :=
  (step_engine hnext).trans (engineStep_of_decodes (s := s.turnTaken) hs hlen
    ((State.holdsAt_congr (s := s) (by rfl) (by rfl)).mpr hbytes) hd)

/-! ## The decode step as a whole -/

theorem tokenStep_literal {fr : Frame} {s : State} (hf : flagOf fr.c s.bitIdx = false) :
    tokenStep fr s = litBody fr (s.inByte fr.p) s := by
  simp [tokenStep, hf]

theorem tokenStep_sentinel {fr : Frame} {s : State} (hf : flagOf fr.c s.bitIdx = true)
    (hp : fr.p + 2 ≤ s.inLen.toNat) (hr : rawLengthOf (s.inByte (fr.p + 1)) = 0#4) :
    tokenStep fr s = endBody fr s := by
  have hneed := (s.need_eq_true fr.p 2).mpr hp
  simp [tokenStep, hf, hneed, hr]

theorem tokenStep_backref {fr : Frame} {s : State} (hf : flagOf fr.c s.bitIdx = true)
    (hp : fr.p + 2 ≤ s.inLen.toNat) (hr : rawLengthOf (s.inByte (fr.p + 1)) ≠ 0#4) :
    tokenStep fr s
      = matchBody fr (positionOf (s.inByte fr.p) (s.inByte (fr.p + 1))) (rawLengthOf (s.inByte (fr.p + 1))) s := by
  have hneed := (s.need_eq_true fr.p 2).mpr hp
  simp [tokenStep, hf, hneed, hr]

theorem tokenStep_truncated {fr : Frame} {s : State} (hf : flagOf fr.c s.bitIdx = true)
    (hp : s.inLen.toNat < fr.p + 2) : tokenStep fr s = raiseError .truncatedInput s := by
  have hneed := (s.need_eq_false fr.p 2).mpr hp
  simp [tokenStep, hf, hneed]

/-- With not even one byte of the token there, either kind of token is missing bytes. -/
theorem tokenStep_missing {fr : Frame} {s : State} (hp : s.inLen.toNat < fr.p + 1) :
    tokenStep fr s = raiseError .truncatedInput s := by
  cases hf : flagOf fr.c s.bitIdx with
  | false =>
    have hneed := (s.need_eq_false fr.p 1).mpr hp
    rw [tokenStep_literal hf, litBody]
    simp [hneed]
  | true => exact tokenStep_truncated hf (by omega)

theorem State.frame_of_command {s : State} (h0 : s.bitIdx = 0#3) :
    s.frame = { p := s.inPtr.toNat + 1, c := s.inByte s.inPtr.toNat } := by
  simp [State.frame, State.tokenStart, State.groupByte, h0]

theorem State.frame_of_token {s : State} (h0 : s.bitIdx ≠ 0#3) : s.frame = { p := s.inPtr.toNat, c := s.cmd } := by
  simp [State.frame, State.tokenStart, State.groupByte, h0]

theorem State.select_of_command {s : State} (h0 : s.bitIdx = 0#3) : s.select = .command := if_pos h0

theorem State.select_of_token {s : State} (h0 : s.bitIdx ≠ 0#3) : s.select = .token (flagOf s.cmd s.bitIdx) := if_neg h0

theorem execCmd_eq_tokenStep {s : State} {c : Byte} (hp : s.inPtr.toNat + 1 ≤ s.inLen.toNat) :
    execCmd c s = tokenStep { p := s.inPtr.toNat + 1, c := c } s := by
  have hneed := (s.need_eq_true s.inPtr.toNat 1).mpr hp
  simp [execCmd, hneed]

/-- The decode step whose first byte is a command byte (41_dispatch.md R102). -/
theorem engineStep_command {s : State} (hs : s.status = .busy .decode) (h0 : s.bitIdx = 0#3) :
    engineStep s = tokenStep s.frame s := by
  have hsel := State.select_of_command h0
  rw [State.frame_of_command h0]
  by_cases hp : s.inPtr.toNat + 1 ≤ s.inLen.toNat
  · have hd : decodeStream s.select [s.inByte s.inPtr.toNat] = .ok (.cmd (s.inByte s.inPtr.toNat), []) := by
      rw [hsel, decodeStream_command_cons]
    exact (engineStep_of_decodes hs (by rw [hsel]; rfl) (State.holdsAt_byte hp) hd).trans (execCmd_eq_tokenStep hp)
  · have hmissing : s.inLen.toNat < s.inPtr.toNat + s.select.length := by
      rw [hsel, Select.length]
      omega
    rw [engineStep_of_missing hs hmissing, tokenStep_missing (Nat.lt_succ_of_lt (Nat.lt_of_not_le hp))]

/-- The decode step of a literal in the middle of a group. -/
theorem engineStep_literal {s : State} (hs : s.status = .busy .decode) (h0 : s.bitIdx ≠ 0#3)
    (hf : flagOf s.cmd s.bitIdx = false) : engineStep s = tokenStep s.frame s := by
  have hframe := State.frame_of_token h0
  have hsel : s.select = .token false := by rw [State.select_of_token h0, hf]
  by_cases hp : s.inPtr.toNat + 1 ≤ s.inLen.toNat
  · have hd : decodeStream s.select [s.inByte s.inPtr.toNat] = .ok (.lit (s.inByte s.inPtr.toNat), []) := by
      rw [hsel, decodeStream_literal_cons]
    rw [engineStep_of_decodes hs (by rw [hsel]; rfl) (State.holdsAt_byte hp) hd, tokenStep_literal (by rw [hframe, hf]),
      exec, execLit, hframe]
  · have hmissing : s.inLen.toNat < s.inPtr.toNat + s.select.length := by
      rw [hsel, Select.length]
      omega
    rw [engineStep_of_missing hs hmissing, hframe, tokenStep_missing (Nat.lt_of_not_le hp)]

/-- The decode step of a sentinel or match in the middle of a group: both bytes are there before the sentinel test (30_encoding.md R79). -/
theorem engineStep_flagged {s : State} (hs : s.status = .busy .decode) (h0 : s.bitIdx ≠ 0#3)
    (hf : flagOf s.cmd s.bitIdx = true) : engineStep s = tokenStep s.frame s := by
  have hframe := State.frame_of_token h0
  have hsel : s.select = .token true := by rw [State.select_of_token h0, hf]
  rw [hframe]
  by_cases hp : s.inPtr.toNat + 2 ≤ s.inLen.toNat
  · have hbytes := State.holdsAt_two_bytes hp
    have hlen : [s.inByte s.inPtr.toNat, s.inByte (s.inPtr.toNat + 1)].length = s.select.length := by
      rw [hsel]
      rfl
    by_cases hr : rawLengthOf (s.inByte (s.inPtr.toNat + 1)) = 0#4
    · rw [engineStep_of_decodes hs hlen hbytes (hsel ▸ decodeStream_sentinel hr []), tokenStep_sentinel hf hp hr, exec,
        execSentinel, hframe]
    · rw [engineStep_of_decodes hs hlen hbytes (hsel ▸ decodeStream_backref hr []), tokenStep_backref hf hp hr, exec,
        execBackref, hframe]
  · have hmissing : s.inLen.toNat < s.inPtr.toNat + s.select.length := by
      rw [hsel, Select.length]
      omega
    rw [engineStep_of_missing hs hmissing, tokenStep_truncated hf (Nat.lt_of_not_le hp)]

/-- Every decode step is the token step of its frame: the two-level dispatch through the fetched item comes to this. -/
theorem engineStep_decode {s : State} (hs : s.status = .busy .decode) : engineStep s = tokenStep s.frame s := by
  by_cases h0 : s.bitIdx = 0#3
  · exact engineStep_command hs h0
  · cases hf : flagOf s.cmd s.bitIdx with
    | false => exact engineStep_literal hs h0 hf
    | true => exact engineStep_flagged hs h0 hf

end Sys2Proof.Machine
end

section
/-! SUPPORT. What a literal or a match makes of the output (00_scope.md R13): the expansion of a token, and the step that completes with it. -/

namespace Sys2Proof.Machine

/-! ## The expansion of tokens -/

@[simp] theorem appendCopy_length (n d : Nat) (out : List Byte) : (appendCopy n d out).length = out.length + n := by
  induction n generalizing out with
  | zero => rfl
  | succ n ih =>
    rw [appendCopy, ih, List.length_append, List.length_singleton]
    omega

theorem expandToken_backref {out out' : List Byte} {position : BitVec 12} {rawLength : BitVec 4} :
    expandToken out (.backref position rawLength) = some out' ↔
      matchDistance position ≤ out.length
        ∧ appendCopy (matchLength rawLength) (matchDistance position) out = out' := by
  simp [expandToken]

/-- Only literals and matches expand. -/
theorem expandToken_some {out out' : List Byte} {i : Instr} (h : expandToken out i = some out') :
    (∃ d, i = .lit d) ∨ ∃ position rawLength, i = .backref position rawLength := by
  cases i with
  | lit d => exact .inl ⟨d, rfl⟩
  | backref position rawLength => exact .inr ⟨position, rawLength, rfl⟩
  | _ => cases h

/-- A token appends as many bytes as it stores. -/
theorem expandToken_length {out out' : List Byte} {i : Instr} (h : expandToken out i = some out') :
    out'.length = out.length + storeLength i := by
  rcases expandToken_some h with ⟨d, rfl⟩ | ⟨position, rawLength, rfl⟩
  · cases h
    simp [storeLength]
  · obtain ⟨_, rfl⟩ := expandToken_backref.mp h
    simp [storeLength]

theorem expand_cons {out out' : List Byte} {i : Instr} {rest : List Instr} :
    expand out (i :: rest) = some out' ↔ ∃ mid, expandToken out i = some mid ∧ expand mid rest = some out' := by
  rw [expand]
  cases expandToken out i with
  | none => simp
  | some mid => simp

theorem expand_length_le {tokens : List Instr} {out out' : List Byte} (h : expand out tokens = some out') :
    out.length ≤ out'.length := by
  induction tokens generalizing out with
  | nil =>
    cases h
    exact le_rfl
  | cons i rest ih =>
    obtain ⟨mid, hmid, hrest⟩ := expand_cons.mp h
    have hlen := expandToken_length hmid
    have := ih hrest
    omega

/-! ## The output of a state -/

@[simp] theorem State.output_length (s : State) : s.output.length = s.outCount.toNat := by
  simp [State.output]

/-- The output after a token that stores `n` bytes is what the memory holds below the new OUT_COUNT. -/
theorem output_emitted_commit {s : State} {n : Nat} (h : s.outCount.toNat + n ≤ s.size.toNat) (p : Nat) (c : Byte) :
    ((s.emitted n).commit p c).output = (List.range (s.outCount.toNat + n)).map s.outByte := by
  rw [State.output, State.commit_outCount, emitted_outCount_toNat h]
  rfl

/-- The bytes below an offset do not change with a write at it, and the byte written stands behind them. -/
theorem range_map_storeOut (s : State) (a : Nat) (v : Byte) :
    (List.range (a + 1)).map (s.storeOut a v).outByte = (List.range a).map s.outByte ++ [v] := by
  rw [List.range_succ, List.map_append, List.map_singleton, State.storeOut_outByte_same]
  congr 1
  refine List.map_congr_left fun b hb => s.storeOut_outByte_other v ?_
  have := List.mem_range.mp hb
  omega

/-- The byte-serial copy appends to the bytes below its destination the copy of 00_scope.md R13. -/
theorem copyBytes_appendCopy {n d dst : Nat} {s u : State} (hd : 1 ≤ d) (hle : d ≤ dst)
    (h : copyBytes n (dst - d) dst s = .ok u) :
    (List.range (dst + n)).map u.outByte = appendCopy n d ((List.range dst).map s.outByte) := by
  induction n generalizing dst s with
  | zero =>
    simp only [copyBytes, Except.ok.injEq] at h
    rw [h]
    rfl
  | succ n ih =>
    simp only [copyBytes] at h
    split at h
    · cases h
    · split at h
      · cases h
      · have hsrc : dst - d + 1 = dst + 1 - d := by omega
        have hbyte : ((List.range dst).map s.outByte).getD (((List.range dst).map s.outByte).length - d) 0#8
            = s.outByte (dst - d) := by
          have hlt : dst - d < dst := by omega
          simp [hlt]
        rw [hsrc] at h
        have hrest := ih (by omega) h
        rw [range_map_storeOut] at hrest
        rw [appendCopy, hbyte, ← hrest]
        congr 2
        omega

/-! ## The bodies that complete -/

theorem litBody_commits {fr : Frame} {s : State} (d : Byte) (hp : fr.p + 1 ≤ s.inLen.toNat)
    (hn : s.outCount.toNat + 1 ≤ s.size.toNat) (hc : s.size.toNat ≤ s.place.outCap) :
    litBody fr d s = .next (((s.storeOut s.writeCursor d).emitted 1).commit (fr.p + 1) fr.c) := by
  have hneed := (s.need_eq_true fr.p 1).mpr hp
  have hroom := (s.room_eq_true 1).mpr hn
  have hhas : s.outHas s.writeCursor = true := by
    rw [State.outHas_eq_true, State.writeCursor]
    omega
  simp [litBody, hneed, hroom, hhas]

theorem matchBody_commits {fr : Frame} {s : State} {position : BitVec 12} {rawLength : BitVec 4}
    (hp : fr.p + 2 ≤ s.inLen.toNat) (hd : matchDistance position ≤ s.outCount.toNat)
    (hn : s.outCount.toNat + matchLength rawLength ≤ s.size.toNat) (hc : s.size.toNat ≤ s.place.outCap) :
    ∃ u, copyBytes (matchLength rawLength) (s.matchSource position) s.writeCursor s = .ok u
      ∧ matchBody fr position rawLength s = .next ((u.emitted (matchLength rawLength)).commit (fr.p + 2) fr.c) := by
  have hneed := (s.need_eq_true fr.p 2).mpr hp
  have hroom := (s.room_eq_true (matchLength rawLength)).mpr hn
  have hdist : ¬ s.writeCursor < matchDistance position := Nat.not_lt.mpr hd
  have hwc : s.writeCursor + matchLength rawLength ≤ s.place.outCap := Nat.le_trans hn hc
  have hsrc : s.matchSource position ≤ s.writeCursor := Nat.sub_le _ _
  obtain ⟨u, hu⟩ := copyBytes_completes (s := s) (Nat.le_trans (Nat.add_le_add_right hsrc _) hwc) hwc
  refine ⟨u, hu, ?_⟩
  simp [matchBody, hneed, hroom, hdist, hu]

theorem endBody_finishes {fr : Frame} {s : State} (hp : fr.p + 2 ≤ s.inLen.toNat) (hn : s.outCount = s.size) :
    endBody fr s = .next (s.commit (fr.p + 2) fr.c).finished := by
  have hneed := (s.need_eq_true fr.p 2).mpr hp
  simp [endBody, hneed, hn]

/-! ## The token that stands at the frame's offset -/

theorem tokenStep_of_lit {fr : Frame} {s : State} {d : Byte} (hf : flagOf fr.c s.bitIdx = (Instr.lit d).flag)
    (hbytes : s.holdsAt fr.p (Instr.lit d).streamBytes) :
    fr.p + 1 ≤ s.inLen.toNat ∧ tokenStep fr s = litBody fr d s := by
  obtain ⟨hp, hb, _⟩ := State.holdsAt_cons.mp hbytes
  exact ⟨hp, (tokenStep_literal hf).trans (by rw [hb])⟩

/-- Both bytes of a flag-1 token, read back as its fields. -/
theorem State.holdsAt_tokenBytes {s : State} {p : Nat} {position : BitVec 12} {rawLength : BitVec 4}
    (h : s.holdsAt p (tokenBytes position rawLength)) :
    p + 2 ≤ s.inLen.toNat ∧ positionOf (s.inByte p) (s.inByte (p + 1)) = position
      ∧ rawLengthOf (s.inByte (p + 1)) = rawLength := by
  obtain ⟨_, hb0, h⟩ := State.holdsAt_cons.mp h
  obtain ⟨hp, hb1, _⟩ := State.holdsAt_cons.mp h
  rw [hb0, hb1, positionOf_tokenBytes, rawLengthOf_tokenBytes]
  exact ⟨hp, rfl, rfl⟩

theorem tokenStep_of_sentinel {fr : Frame} {s : State} {position : BitVec 12}
    (hf : flagOf fr.c s.bitIdx = (Instr.sentinel position).flag)
    (hbytes : s.holdsAt fr.p (Instr.sentinel position).streamBytes) :
    fr.p + 2 ≤ s.inLen.toNat ∧ tokenStep fr s = endBody fr s := by
  obtain ⟨hp, _, hr⟩ := State.holdsAt_tokenBytes hbytes
  exact ⟨hp, tokenStep_sentinel hf hp hr⟩

theorem tokenStep_of_backref {fr : Frame} {s : State} {position : BitVec 12} {rawLength : BitVec 4}
    (hw : (Instr.backref position rawLength).wellFormed = true)
    (hf : flagOf fr.c s.bitIdx = (Instr.backref position rawLength).flag)
    (hbytes : s.holdsAt fr.p (Instr.backref position rawLength).streamBytes) :
    fr.p + 2 ≤ s.inLen.toNat ∧ tokenStep fr s = matchBody fr position rawLength s := by
  obtain ⟨hp, hpos, hr⟩ := State.holdsAt_tokenBytes hbytes
  have hne : rawLengthOf (s.inByte (fr.p + 1)) ≠ 0#4 := hr ▸ (Instr.wellFormed_backref _ _).mp hw
  exact ⟨hp, by rw [tokenStep_backref hf hp hne, hpos, hr]⟩

/-- A literal or match that expands within SIZE completes: it changes the output memory and the cursors, and the output becomes the expansion. -/
theorem tokenStep_expands {fr : Frame} {s : State} {i : Instr} {out : List Byte} (hw : i.wellFormed = true)
    (hf : flagOf fr.c s.bitIdx = i.flag) (hbytes : s.holdsAt fr.p i.streamBytes)
    (hexp : expandToken s.output i = some out) (hn : out.length ≤ s.size.toNat) (hc : s.size.toNat ≤ s.place.outCap) :
    ∃ (m : Memory) (t : State),
      t = (({ s with outMem := m } : State).emitted (storeLength i)).commit (fr.p + i.streamBytes.length) fr.c
      ∧ tokenStep fr s = .next t ∧ t.output = out := by
  have hlen := expandToken_length hexp
  rw [State.output_length] at hlen
  rcases expandToken_some hexp with ⟨d, rfl⟩ | ⟨position, rawLength, rfl⟩
  · obtain ⟨hp, hstep⟩ := tokenStep_of_lit hf hbytes
    have hroom : s.outCount.toNat + 1 ≤ s.size.toNat := hlen ▸ hn
    refine ⟨_, _, rfl, hstep.trans (litBody_commits d hp hroom hc), ?_⟩
    cases hexp
    exact (output_emitted_commit (s := s.storeOut s.writeCursor d) hroom _ _).trans (range_map_storeOut s s.writeCursor d)
  · obtain ⟨hp, hstep⟩ := tokenStep_of_backref hw hf hbytes
    obtain ⟨hd, rfl⟩ := expandToken_backref.mp hexp
    rw [State.output_length] at hd
    have hroom : s.outCount.toNat + matchLength rawLength ≤ s.size.toNat := hlen ▸ hn
    obtain ⟨u, hu, hbody⟩ := matchBody_commits (fr := fr) hp hd hroom hc
    have hframe := copyBytes_frame hu
    refine ⟨u.outMem, _, rfl, ?_, ?_⟩
    · rw [hstep, hbody, ← hframe]
      rfl
    · rw [← hframe]
      refine (output_emitted_commit (s := u) (by rw [hframe]; exact hroom) _ _).trans ?_
      rw [show u.outCount = s.outCount by rw [hframe]]
      exact copyBytes_appendCopy (matchDistance_bounds position).1 hd hu

end Sys2Proof.Machine
end

section
/-! SUPPORT. AUTO grouping as the engine meets it: the bytes still to come from any place in a group, and the DECODE that consumes them. -/

namespace Sys2Proof

/-! ## Command bytes -/

/-- The flag of the token at a place of a list, 0 beyond the list (30_encoding.md R86). -/
def flagAt (tokens : List Instr) (k : Nat) : Bool := (tokens[k]?.map Instr.flag).getD false

@[simp] theorem flagAt_nil (k : Nat) : flagAt [] k = false := rfl
@[simp] theorem flagAt_cons_zero (t : Instr) (rest : List Instr) : flagAt (t :: rest) 0 = t.flag := rfl
@[simp] theorem flagAt_cons_succ (t : Instr) (rest : List Instr) (k : Nat) :
    flagAt (t :: rest) (k + 1) = flagAt rest k := rfl

theorem flagAt_take {tokens : List Instr} {n k : Nat} (h : k < n) : flagAt (tokens.take n) k = flagAt tokens k := by
  rw [flagAt, flagAt, List.getElem?_take_of_lt h]

/-- Bit `k` of a command byte is the flag of token `k`: each token's flag is shifted past those of the tokens before it. -/
theorem commandByte_getLsbD (run : List Instr) {k : Nat} (hk : k < 8) : (commandByte run).getLsbD k = flagAt run k := by
  induction run generalizing k with
  | nil => simp [commandByte]
  | cons t rest ih =>
    cases k with
    | zero => cases hf : t.flag <;> simp [commandByte, hf]
    | succ k =>
      have hone : (1#8).getLsbD (k + 1) = false := by simp [BitVec.getLsbD_one]
      have hshift : (commandByte rest <<< 1).getLsbD (k + 1) = flagAt rest k := by
        rw [BitVec.getLsbD_shiftLeft, Nat.add_sub_cancel, ih (Nat.lt_of_succ_lt hk)]
        simp [hk]
      rw [commandByte, BitVec.getLsbD_or, hshift, flagAt_cons_succ]
      split <;> simp [hone]

/-! ## The stream from any place in a group -/

namespace Machine

/-- The command byte that stands before these tokens where BIT_IDX is 0. -/
def groupHead (idx : BitVec 3) (tokens : List Instr) : List Byte :=
  if idx = 0#3 then [commandByte (tokens.take 8)] else []

/-- The bytes still to come at `BIT_IDX = idx` with these tokens left: AUTO grouping as the engine consumes it, one token at a time. -/
def streamFrom : BitVec 3 → List Instr → List Byte
  | _, [] => []
  | idx, t :: rest => groupHead idx (t :: rest) ++ (t.streamBytes ++ streamFrom (nextBitIdx idx) rest)

theorem nextBitIdx_ofNat (n : Nat) : nextBitIdx (BitVec.ofNat 3 n) = BitVec.ofNat 3 (n + 1) :=
  (BitVec.ofNat_add n 1).symm

/-- What AUTO grouping has placed of the group being filled: its command byte, and the tokens in `run`. -/
def groupFront (run rest : List Instr) : List Byte :=
  if run = [] then [] else commandByte (run ++ rest.take (8 - run.length)) :: run.flatMap Instr.streamBytes

/-- One token more in the group: what stands before it, its command byte if it is the first, then its bytes. -/
theorem groupFront_append_head (run : List Instr) (t : Instr) (rest : List Instr) (h : run.length < 8) :
    groupFront (run ++ [t]) rest
      = groupFront run (t :: rest) ++ groupHead (BitVec.ofNat 3 run.length) (t :: rest) ++ t.streamBytes := by
  cases run with
  | nil => simp [groupFront, groupHead]
  | cons u run =>
    have hidx : BitVec.ofNat 3 (u :: run).length ≠ 0#3 := by
      rw [ne_eq, ← BitVec.toNat_inj, BitVec.toNat_ofNat, Nat.mod_eq_of_lt h]
      simp
    have htake : 8 - (u :: run).length = 8 - (u :: run ++ [t]).length + 1 := by
      simp only [List.length_append, List.length_cons, List.length_nil] at h ⊢
      omega
    rw [groupHead, if_neg hidx, groupFront, groupFront, if_neg (by simp), if_neg (by simp), htake, List.take_succ_cons]
    simp

theorem assembleAuto_eq (rest run : List Instr) (h : run.length ≤ 7) :
    assembleAuto run rest = groupFront run rest ++ streamFrom (BitVec.ofNat 3 run.length) rest := by
  induction rest generalizing run with
  | nil => simp [assembleAuto, groupFront, streamFrom, assembleRun]
  | cons t rest ih =>
    have hhead := groupFront_append_head run t rest (by omega)
    have hstream : groupFront run (t :: rest) ++ streamFrom (BitVec.ofNat 3 run.length) (t :: rest)
        = groupFront (run ++ [t]) rest ++ streamFrom (BitVec.ofNat 3 (run.length + 1)) rest := by
      rw [hhead, streamFrom, nextBitIdx_ofNat]
      simp only [List.append_assoc]
    rw [hstream, assembleAuto]
    split
    next hfull =>
      rw [ih [] (by simp)]
      simp [groupFront, hfull, assembleRun]
    next hfull =>
      rw [ih (run ++ [t]) (by simp; omega)]
      simp

/-- AUTO grouping of a token list is the stream from `BIT_IDX = 0`. -/
theorem assembleAuto_nil (tokens : List Instr) : assembleAuto [] tokens = streamFrom 0#3 tokens := by
  simpa [groupFront] using assembleAuto_eq tokens [] (by simp)

/-! ## A DECODE that is executing over the stream -/

/-- A DECODE is executing with exactly these tokens left: their bytes stand from IN_PTR to IN_LEN, and in the middle of a group CMD holds the
flags of those that belong to it. -/
structure Decoding (s : State) (tokens : List Instr) : Prop where
  status : s.status = .busy .decode
  turns : s.turns = []
  capacity : s.size.toNat ≤ s.place.outCap
  bytes : s.holdsAt s.inPtr.toNat (streamFrom s.bitIdx tokens)
  ends : s.inPtr.toNat + (streamFrom s.bitIdx tokens).length = s.inLen.toNat
  flags : s.bitIdx ≠ 0#3 → ∀ j, s.bitIdx.toNat + j < 8 → s.cmd.getLsbD (s.bitIdx.toNat + j) = flagAt tokens j

theorem Decoding.step_eq {s : State} {tokens : List Instr} (h : Decoding s tokens) : step s = tokenStep s.frame s := by
  rw [← engineStep_decode h.status, step, h.turns]

/-- The command byte of the step, fetched or held, has the flags of the tokens left. -/
theorem Decoding.groupByte_flags {s : State} {t : Instr} {rest : List Instr} (h : Decoding s (t :: rest)) {j : Nat}
    (hj : s.bitIdx.toNat + j < 8) : s.groupByte.getLsbD (s.bitIdx.toNat + j) = flagAt (t :: rest) j := by
  by_cases h0 : s.bitIdx = 0#3
  · have hj8 : j < 8 := by omega
    have hbytes := h.bytes
    rw [streamFrom, groupHead, if_pos h0] at hbytes
    obtain ⟨_, hc, _⟩ := State.holdsAt_cons.mp hbytes
    rw [State.groupByte, if_pos h0, hc, h0, BitVec.toNat_ofNat, Nat.zero_mod, Nat.zero_add, commandByte_getLsbD _ hj8,
      flagAt_take hj8]
  · rw [State.groupByte, if_neg h0, h.flags h0 j hj]

theorem Decoding.flag {s : State} {t : Instr} {rest : List Instr} (h : Decoding s (t :: rest)) :
    flagOf s.frame.c s.bitIdx = t.flag :=
  h.groupByte_flags (j := 0) s.bitIdx.isLt

theorem State.tokenStart_eq (s : State) (tokens : List Instr) :
    s.tokenStart = s.inPtr.toNat + (groupHead s.bitIdx tokens).length := by
  unfold State.tokenStart groupHead
  split <;> rfl

/-- The next token's bytes stand at the frame's offset, and those of the tokens after it behind them up to IN_LEN. -/
theorem Decoding.token_bytes {s : State} {t : Instr} {rest : List Instr} (h : Decoding s (t :: rest)) :
    s.holdsAt s.frame.p t.streamBytes
      ∧ s.holdsAt (s.frame.p + t.streamBytes.length) (streamFrom (nextBitIdx s.bitIdx) rest)
      ∧ s.frame.p + t.streamBytes.length + (streamFrom (nextBitIdx s.bitIdx) rest).length = s.inLen.toNat := by
  have hp : s.frame.p = s.inPtr.toNat + (groupHead s.bitIdx (t :: rest)).length := s.tokenStart_eq _
  have hbytes := h.bytes
  have hends := h.ends
  rw [streamFrom] at hbytes hends
  obtain ⟨_, htail⟩ := State.holdsAt_append.mp hbytes
  obtain ⟨htoken, hrest⟩ := State.holdsAt_append.mp htail
  simp only [List.length_append] at hends
  rw [hp]
  exact ⟨htoken, hrest, by omega⟩

/-- A token's step that stores `n` bytes and goes on leaves a DECODE with the rest of the tokens. -/
theorem Decoding.emitted_commit {s : State} {t : Instr} {rest : List Instr} (h : Decoding s (t :: rest)) (m : Memory) (n : Nat) :
    Decoding ((({ s with outMem := m } : State).emitted n).commit (s.frame.p + t.streamBytes.length) s.frame.c) rest := by
  obtain ⟨_, hrest, hends⟩ := h.token_bytes
  have hptr : (BitVec.ofNat 32 (s.frame.p + t.streamBytes.length)).toNat = s.frame.p + t.streamBytes.length :=
    toNat_ofNat_of_le (w := s.inLen) (by omega)
  refine { status := h.status, turns := h.turns, capacity := h.capacity, bytes := ?_, ends := ?_, flags := ?_ }
  · rw [State.commit_inPtr, hptr, State.commit_bitIdx, State.emitted_bitIdx]
    exact (State.holdsAt_congr (s := s) (by rfl) (by rfl)).mpr hrest
  · rw [State.commit_inPtr, hptr]
    exact hends
  · intro hidx j hj
    have hnext : (nextBitIdx s.bitIdx).toNat = s.bitIdx.toNat + 1 := by
      have hlt := s.bitIdx.isLt
      have hne : (nextBitIdx s.bitIdx).toNat ≠ 0 := fun h0 => hidx (BitVec.eq_of_toNat_eq h0)
      simp only [nextBitIdx, BitVec.toNat_add, BitVec.toNat_ofNat] at hne ⊢
      omega
    simp only [State.commit_bitIdx, State.emitted_bitIdx, State.commit_cmd, hnext] at hj ⊢
    rw [Nat.add_assoc, Nat.add_comm 1] at hj ⊢
    exact h.groupByte_flags hj

/-- One step of a literal or match that expands within SIZE. -/
theorem Decoding.step_expands {s : State} {t : Instr} {rest : List Instr} {out : List Byte} (h : Decoding s (t :: rest))
    (hw : t.wellFormed = true) (hexp : expandToken s.output t = some out) (hn : out.length ≤ s.size.toNat) :
    ∃ u, step s = .next u ∧ Decoding u rest ∧ u.output = out ∧ u.size = s.size ∧ u.inLen = s.inLen := by
  obtain ⟨htoken, _, _⟩ := h.token_bytes
  obtain ⟨m, u, hu, hstep, hout⟩ := tokenStep_expands hw h.flag htoken hexp hn h.capacity
  subst hu
  exact ⟨_, h.step_eq.trans hstep, h.emitted_commit m _, hout, rfl, rfl⟩

/-- The step of the sentinel that ends the stream. -/
theorem Decoding.step_finishes {s : State} {position : BitVec 12} (h : Decoding s [.sentinel position])
    (hsize : s.outCount = s.size) :
    ∃ t, step s = .next t ∧ t.status = .done ∧ t.code = 0#4 ∧ t.output = s.output ∧ t.outCount = s.size
      ∧ t.inPtr = s.inLen := by
  obtain ⟨htoken, _, hends⟩ := h.token_bytes
  obtain ⟨hp, hstep⟩ := tokenStep_of_sentinel h.flag htoken
  refine ⟨_, h.step_eq.trans (hstep.trans (endBody_finishes hp hsize)), rfl, rfl, rfl, hsize, ?_⟩
  have hptr : s.frame.p + 2 = s.inLen.toNat := hends
  rw [State.finished_inPtr, State.commit_inPtr, hptr, BitVec.ofNat_toNat, BitVec.setWidth_eq]

theorem run_succ {n : Nat} {s t : State} (h : step s = .next t) : core.run (n + 1) s = core.run n t := by
  have hcore : core.step s = .next t := h
  simp only [Host.Core.run, hcore]

/-- A DECODE over literals, matches and a sentinel that expand to SIZE bytes runs to DONE, one step a token. -/
theorem Decoding.run {tokens : List Instr} {position : BitVec 12} {out : List Byte} {s : State}
    (h : Decoding s (tokens ++ [.sentinel position])) (hw : ∀ t ∈ tokens, t.wellFormed = true)
    (hexp : expand s.output tokens = some out) (hsize : s.size.toNat = out.length) :
    ∃ t, core.run (tokens.length + 1) s = .next t ∧ t.status = .done ∧ t.code = 0#4 ∧ t.output = out
      ∧ t.outCount = s.size ∧ t.inPtr = s.inLen := by
  induction tokens generalizing s with
  | nil =>
    cases hexp
    have hcount : s.outCount = s.size := BitVec.eq_of_toNat_eq (by rw [hsize, State.output_length])
    obtain ⟨t, hstep, hend⟩ := h.step_finishes hcount
    exact ⟨t, run_succ hstep, hend⟩
  | cons i rest ih =>
    obtain ⟨mid, hmid, hrest⟩ := expand_cons.mp hexp
    obtain ⟨u, hstep, hu, houtu, hsizeu, hlenu⟩ :=
      h.step_expands (hw i List.mem_cons_self) hmid (hsize ▸ expand_length_le hrest)
    obtain ⟨t, hrun, hend⟩ := ih hu (fun t ht => hw t (List.mem_cons_of_mem i ht)) (houtu ▸ hrest) (hsizeu ▸ hsize)
    rw [hsizeu, hlenu] at hend
    exact ⟨t, (run_succ hstep).trans hrun, hend⟩

/-- The start of a DECODE over an assembled container. -/
theorem decoding_of_container {s : State} {tokens : List Instr} {container : List Byte}
    (hcont : container = assembleContainer s.size tokens) (hs : s.status = .busy .decode) (ht : s.turns = [])
    (hptr : s.inPtr = 8#32) (hidx : s.bitIdx = 0#3) (hc : s.size.toNat ≤ s.place.outCap)
    (hlen : s.inLen.toNat = container.length)
    (hbytes : ∀ k, k < container.length → some (s.inByte k) = container[k]?) : Decoding s tokens := by
  have hheld : s.holdsAt 0 container := State.holdsAt_of_forall (by omega) (by simpa using hbytes)
  rw [hcont, assembleContainer, assembleAuto_nil] at hheld hlen
  obtain ⟨_, hstream⟩ := State.holdsAt_append.mp hheld
  refine { status := hs, turns := ht, capacity := hc, bytes := ?_, ends := ?_, flags := fun h0 => absurd hidx h0 }
  · rw [hptr, hidx]
    exact hstream
  · rw [hptr, hidx, hlen, List.length_append]
    rfl

end Machine

end Sys2Proof
end

section
/-! SUPPORT. Placing a table word (log entry 6), and the assembly of matches (30_encoding.md R85, R86). -/

namespace Sys2Proof.Machine

/-! ## Placing an item of the stream -/

theorem State.loadBytes_inByte_below {bytes : List Byte} {s : State} {p a : Nat} (h : a < p) :
    (s.loadBytes p bytes).inByte a = s.inByte a := by
  induction bytes generalizing s p with
  | nil => rfl
  | cons b rest ih => rw [State.loadBytes, ih (by omega), s.storeIn_inByte_other b (by omega)]

theorem State.loadBytes_inByte {bytes : List Byte} {s : State} {p k : Nat} (h : k < bytes.length) :
    some ((s.loadBytes p bytes).inByte (p + k)) = bytes[k]? := by
  induction bytes generalizing s p k with
  | nil => simp at h
  | cons b rest ih =>
    rw [State.loadBytes]
    cases k with
    | zero => rw [State.loadBytes_inByte_below (by omega), Nat.add_zero, s.storeIn_inByte_same, List.getElem?_cons_zero]
    | succ k =>
      rw [List.getElem?_cons_succ, ← ih (s := s.storeIn p b) (p := p + 1) (by simpa using h), Nat.add_assoc,
        Nat.add_comm 1]

theorem State.placeOffset_add_lt (s : State) : s.placeOffset + 3 < 2 ^ 32 := by
  unfold State.placeOffset
  split
  next h => exact h.2
  next => decide

@[simp] theorem padTo3_length (bytes : List Byte) : (padTo3 bytes).length = 3 := by
  simp [padTo3]

theorem padTo3_eq_append {bytes : List Byte} (h : bytes.length ≤ 3) :
    padTo3 bytes = bytes ++ ([0#8, 0#8, 0#8] : List Byte).take (3 - bytes.length) := by
  rw [padTo3, List.take_append, List.take_of_length_le h]

@[simp] theorem State.placeItem_inPtr_toNat (s : State) (sel : Select) (bytes : List Byte) :
    (s.placeItem sel bytes).inPtr.toNat = s.placeOffset := by
  have := s.placeOffset_add_lt
  exact (BitVec.toNat_ofNat _ _).trans (Nat.mod_eq_of_lt (by omega))

theorem State.placeItem_inLen_ge (s : State) (sel : Select) (bytes : List Byte) :
    s.placeOffset + 3 ≤ (s.placeItem sel bytes).inLen.toNat := by
  have hlt := s.placeOffset_add_lt
  show s.placeOffset + 3 ≤ (if s.inLen.toNat < s.placeOffset + 3 then BitVec.ofNat 32 (s.placeOffset + 3) else s.inLen).toNat
  split
  · rw [BitVec.toNat_ofNat, Nat.mod_eq_of_lt hlt]
  · omega

@[simp] theorem State.placeItem_select (s : State) (sel : Select) (bytes : List Byte) :
    (s.placeItem sel bytes).select = sel := by
  rcases sel with _ | ⟨_ | _⟩
  · rfl
  · simp [State.select, State.placeItem, flagOf]
  · simp [State.select, State.placeItem, flagOf]

/-- The placed item stands at IN_PTR, and zeros behind it. -/
theorem State.placeItem_holdsAt (s : State) (sel : Select) {bytes : List Byte} (h : bytes.length ≤ 3) :
    (s.placeItem sel bytes).holdsAt (s.placeItem sel bytes).inPtr.toNat bytes := by
  have hpad : (s.placeItem sel bytes).holdsAt s.placeOffset (padTo3 bytes) := by
    refine State.holdsAt_of_forall ?_ fun k hk => s.loadBytes_inByte hk
    rw [padTo3_length]
    exact s.placeItem_inLen_ge sel bytes
  rw [State.placeItem_inPtr_toNat]
  rw [padTo3_eq_append h] at hpad
  exact (State.holdsAt_append.mp hpad).1

theorem step_placeItem {s : State} {sel : Select} {bytes rest : List Byte} {i : Instr} (hlen : bytes.length = sel.length)
    (hd : decodeStream sel bytes = .ok (i, rest)) :
    step (s.placeItem sel bytes) = exec i (s.placeItem sel bytes).turnTaken := by
  have hsel := s.placeItem_select sel bytes
  have hshort : bytes.length ≤ 3 := hlen.trans_le (sel.length_le.trans (by decide))
  exact step_of_decodes rfl rfl (hsel.symm ▸ hlen) (s.placeItem_holdsAt sel hshort) (hsel.symm ▸ hd)

/-! ## The host's write of CTRL -/

/-- A CTRL write while not BUSY runs the command it spells. -/
theorem hostAct_ctrlWrite {s : State} (hb : s.busy = false) (w : Word) :
    hostAct (.regWrite 32 0x00#32 w) s = exec (decodeCtrl w) s := by
  rw [hostAct_regWrite (by decide)]
  simp [regStore, hb]

theorem hostAct_ctrlWrite_busy {s : State} (hb : s.busy = true) (w : Word) :
    hostAct (.regWrite 32 0x00#32 w) s = .next s :=
  (hostAct_regWrite (by decide)).trans (regStore_busy hb _ w)

theorem State.placeCtrl_busy (s : State) (w : Word) : (s.placeCtrl w).busy = false := by
  cases hb : s.busy with
  | true =>
    simp only [State.placeCtrl, hb, if_true]
    rfl
  | false =>
    simp only [State.placeCtrl, hb, Bool.false_eq_true, if_false]
    exact hb

theorem step_placeCtrl (s : State) (w : Word) :
    step (s.placeCtrl w) = exec (decodeCtrl w) (s.placeCtrl w).turnTaken :=
  (step_host rfl).trans (hostAct_ctrlWrite (s := (s.placeCtrl w).turnTaken) (s.placeCtrl_busy w) w)

/-! ## The header -/

/-- Four bytes that are a word's, lowest first, are read back as that word. -/
theorem State.inWord_of_bytes {s : State} {a : Nat} {w : Word} (h : ∀ k, k < 4 → s.inByte (a + k) = byteOf w k) :
    s.inWord a = w := by
  have h0 := h 0 (by omega)
  rw [Nat.add_zero] at h0
  rw [State.inWord, h0, h 1 (by omega), h 2 (by omega), h 3 (by omega), le32_byteOf]

/-- INSPECT's step over a whole header with the right magic (40_header.md R91). -/
theorem inspectStep_finishes {s : State} (hlen : headerLength ≤ s.inLen.toNat) (hmagic : s.inWord 0 = magic) :
    inspectStep s = .next { s with size := s.inWord 4 }.finished := by
  have hneed4 := (s.need_eq_true 0 4).mpr (by unfold headerLength at hlen; omega)
  have hneed8 := (s.need_eq_true 0 headerLength).mpr (by omega)
  simp [inspectStep, hneed4, hneed8, hmagic]

theorem execInspect_step {s : State} (hs : s.status = .busy .inspect) : execInspect s = inspectStep s := by
  simp only [execInspect, hs]

/-! ## The assembly of matches -/

theorem assembleMatch_of_range {p n : Nat} (hp : p ≤ 4095) (h2 : 2 ≤ n) (h16 : n ≤ 16) :
    assembleMatch p n = some (.backref (BitVec.ofNat 12 p) (BitVec.ofNat 4 (n - 1))) :=
  if_pos ⟨hp, h2, h16⟩

theorem assembleMatch_eq_none {p n : Nat} : assembleMatch p n = none ↔ 4095 < p ∨ n < 2 ∨ 16 < n := by
  rw [assembleMatch]
  split
  next h => simp; omega
  next h => simp; omega

/-- REP is MATCH with position 0 (30_encoding.md R86). -/
theorem assembleItem_rep (n : Nat) : assembleItem (.rep n) = assembleItem (.mtch 0 n) := rfl

/-- COPY is MATCH with position `d - 1` (30_encoding.md R86). -/
theorem assembleItem_copy {d : Nat} (h1 : 1 ≤ d) (h2 : d ≤ 4096) (n : Nat) :
    assembleItem (.copy d n) = assembleItem (.mtch (d - 1) n) := by
  simp [assembleItem, AsmItem.token, h1, h2]

theorem assembleItem_copy_out_of_range {d : Nat} (h : d = 0 ∨ 4096 < d) (n : Nat) : assembleItem (.copy d n) = none := by
  have hd : ¬ (1 ≤ d ∧ d ≤ 4096) := by omega
  simp [assembleItem, AsmItem.token, hd]

theorem assembleItem_mtch_of_range {p n : Nat} (hp : p ≤ 4095) (h2 : 2 ≤ n) (h16 : n ≤ 16) :
    assembleItem (.mtch p n) = some (tokenBytes (BitVec.ofNat 12 p) (BitVec.ofNat 4 (n - 1))) := by
  simp [assembleItem, AsmItem.token, assembleMatch_of_range hp h2 h16, Instr.streamBytes, encode]

theorem assembleItem_mtch_out_of_range {p n : Nat} (h : 4095 < p ∨ n < 2 ∨ 16 < n) : assembleItem (.mtch p n) = none := by
  simp [assembleItem, AsmItem.token, assembleMatch_eq_none.mpr h]

end Sys2Proof.Machine
end

section
/-! SUPPORT. The statements settled: the encodings. -/

namespace Sys2Proof.Machine

/-- Settles O51. -/
theorem decodeOfEncode : Obligations.DecodeOfEncode := fun _ hw =>
  ⟨fun _ _ rest he => decodeStream_encode hw he rest, fun _ he => decodeCtrl_encode he⟩

/-- Settles O60: AUTO grouping is the stream as the engine consumes it, and each step consumes one token and makes of the output what the
token expands to. -/
theorem assembledContainerDecodesToItsExpansion : Obligations.AssembledContainerDecodesToItsExpansion := by
  intro tokens position out container s hw hexp hcont hs ht hptr hcount hidx hsize hcap hlen hbytes
  have hstart : s.output = [] := by simp [State.output, hcount]
  exact (decoding_of_container hcont hs ht hptr hidx (hsize ▸ hcap) hlen hbytes).run hw (hstart ▸ hexp) hsize

/-- Settles O22: the header's two words are read back from their bytes. -/
theorem encodedHeaderPassesInspect : Obligations.EncodedHeaderPassesInspect := by
  intro s size hs hlen hbytes
  have hmagic : s.inWord 0 = magic := State.inWord_of_bytes fun k hk => by
    have hb := hbytes k (by omega)
    rw [encodeHeader_getElem_magic magic size hk, Option.some.injEq] at hb
    rwa [Nat.zero_add]
  have hsize : s.inWord 4 = size := State.inWord_of_bytes fun k hk => by
    have hb := hbytes (4 + k) (by omega)
    rwa [encodeHeader_getElem_size magic size hk, Option.some.injEq] at hb
  exact (execInspect_step hs).trans ((inspectStep_finishes hlen hmagic).trans (by rw [hsize]; rfl))

/-- Settles O36. -/
theorem stepRunsItemAtInPtr : Obligations.StepRunsItemAtInPtr := by
  intro s i bytes hnext hs hw he hlen hbytes
  have hd := decodeStream_encode hw he []
  rw [List.append_nil] at hd
  exact step_of_decodes hnext hs (encode_length he) (State.holdsAt_of_forall hlen hbytes) hd

/-- Settles O37: an item is placed where the engine fetches it, and a CTRL word as the host's next turn. -/
theorem nextStepRunsPlacedWord : Obligations.NextStepRunsPlacedWord := by
  intro s nbits w i h
  obtain ⟨code, rest, hcode, hd⟩ := decodeTableWord_eq_some.mp h
  simp only [State.withFetchWord, hcode]
  cases code with
  | stream sel bytes => exact step_placeItem (tableCode_length hcode) hd
  | ctrl word =>
    cases hd
    exact step_placeCtrl s word

/-- Settles O52. -/
theorem encodeOfDecode : Obligations.EncodeOfDecode := fun _ _ _ _ => encode_decodeStream

/-- Settles O54. -/
theorem operandAssembly : Obligations.OperandAssembly := by
  intro b0 b1
  have hpos := positionOf_toNat b0 b1
  have hraw := rawLengthOf_toNat b1
  exact ⟨positionOf_eq_shift_or b0 b1, rawLengthOf_eq_and b1, hpos, hraw, by rw [matchLength, hraw],
    by rw [matchDistance, hpos]⟩

/-- Settles O55: the test reads the flag bit and the low four bits, which are the raw length. -/
theorem sentinelTestComesBeforeMatch : Obligations.SentinelTestComesBeforeMatch := by
  intro tw htw
  rw [and_flagMask htw, and_sentinelMask htw]
  refine ⟨fun h => ?_, fun hne h => ?_⟩
  · have hr := (rawLengthOf_ofNat_eq_zero tw).mpr (by omega)
    exact ⟨_, decodeTableWord_eq_some.mpr ⟨_, _, tableCode_token (by omega), decodeStream_sentinel hr []⟩⟩
  · have hr := mt (rawLengthOf_ofNat_eq_zero tw).mp (by omega)
    exact ⟨_, _, decodeTableWord_eq_some.mpr ⟨_, _, tableCode_token (by omega), decodeStream_backref hr []⟩, hr⟩

/-- Settles O56. -/
theorem tableWordsRoundTrip : Obligations.TableWordsRoundTrip := fun i hw =>
  decodeTableWord_eq_some.mpr ⟨_, _, tableCode_encodeTableWord i, decode_encode hw⟩

/-- Settles O58: MATCH, REP and COPY are one assembly of a position and a raw length. -/
theorem assembledMatchDecodes : Obligations.AssembledMatchDecodes := by
  intro p n
  refine ⟨fun hp h2 h16 => ?_, assembleItem_mtch_out_of_range, fun h => ?_, fun d h => ?_⟩
  · have hm := assembleItem_mtch_of_range hp h2 h16
    have hposition : (BitVec.ofNat 12 p).toNat = p := (BitVec.toNat_ofNat p 12).trans (Nat.mod_eq_of_lt (by omega))
    have hraw : (BitVec.ofNat 4 (n - 1)).toNat = n - 1 := (BitVec.toNat_ofNat _ _).trans (Nat.mod_eq_of_lt (by omega))
    have hwf : (Instr.backref (BitVec.ofNat 12 p) (BitVec.ofNat 4 (n - 1))).wellFormed = true := by
      rw [Instr.wellFormed_backref, ne_eq, ← BitVec.toNat_inj, hraw, BitVec.toNat_ofNat]
      omega
    refine ⟨_, _, hm, ?_, ?_, ?_, ?_, _, _, decodeStream_encode hwf rfl [], ?_, ?_⟩
    · rw [field_toNat, hposition]
      omega
    · rw [append_toNat, field_toNat, hposition, hraw]
      omega
    · exact (assembleItem_copy (by omega) (by omega) n).trans hm
    · rintro rfl
      exact (assembleItem_rep n).trans hm
    · rw [matchDistance, hposition]
    · rw [matchLength, hraw]
      omega
  · exact (assembleItem_rep n).trans (assembleItem_mtch_out_of_range (.inr h))
  · by_cases hd : d = 0 ∨ 4096 < d
    · exact assembleItem_copy_out_of_range hd n
    · rw [assembleItem_copy (by omega) (by omega)]
      exact assembleItem_mtch_out_of_range (by omega)

/-- Settles O59. -/
theorem autoCommandByteFlags : Obligations.AutoCommandByteFlags := by
  intro run k _ hk
  rw [commandByte_getLsbD run hk, flagAt]
  cases run[k]? with
  | none => rfl
  | some i => cases i <;> rfl

/-- Settles O11. -/
theorem ctrlWriteRunsItsCommand : Obligations.CtrlWriteRunsItsCommand := by
  refine ⟨decodeCtrl_of_op, fun s w rest hturns => ?_⟩
  rw [step_host hturns]
  exact ⟨fun hb => hostAct_ctrlWrite (s := s.turnTaken) hb w, fun hb => hostAct_ctrlWrite_busy (s := s.turnTaken) hb w⟩

/-- Settles O12. -/
theorem nopAndReservedChangeNothing : Obligations.NopAndReservedChangeNothing := by
  refine ⟨fun s => ⟨rfl, rfl, fun w hop => ?_⟩, fun _ _ => decodeCtrl_congr⟩
  obtain ⟨hnop, _, _, hrsvd⟩ := decodeCtrl_of_op w
  cases hb : s.busy with
  | true => exact hostAct_ctrlWrite_busy hb w
  | false =>
    rw [hostAct_ctrlWrite hb]
    rcases hop with h | h
    · rw [hnop h]
      rfl
    · rw [hrsvd h]
      rfl

/-- Settles O53. -/
theorem everyLongEnoughStreamDecodes : Obligations.EveryLongEnoughStreamDecodes := fun _ _ =>
  ⟨decodeStream_of_length_le, decodeStream_of_length_lt⟩

/-- Settles O57: each of the words is a closed term, which the decoder evaluates. -/
theorem writtenOutWordsDecode : Obligations.WrittenOutWordsDecode := by
  unfold Obligations.WrittenOutWordsDecode
  decide

end Sys2Proof.Machine
end

section
/-! SUPPORT. The INSPECT step case by case (40_header.md R91), the magic byte by byte, and the frame of each instruction. -/

namespace Sys2Proof

/-! ## The magic -/

/-- A little-endian word is its four bytes. -/
theorem le32_inj {a0 a1 a2 a3 b0 b1 b2 b3 : Byte} :
    le32 a0 a1 a2 a3 = le32 b0 b1 b2 b3 ↔ a0 = b0 ∧ a1 = b1 ∧ a2 = b2 ∧ a3 = b3 := by
  simp only [← BitVec.toNat_inj, le32_toNat]
  omega

theorem magic_eq_le32 : magic = le32 0x4C#8 0x5A#8 0x53#8 0x53#8 := by decide

namespace Machine

theorem State.inWord_eq_magic (s : State) :
    s.inWord 0 = magic ↔ s.inByte 0 = 0x4C#8 ∧ s.inByte 1 = 0x5A#8 ∧ s.inByte 2 = 0x53#8 ∧ s.inByte 3 = 0x53#8 := by
  rw [magic_eq_le32]
  exact le32_inj

/-! ## The INSPECT step -/

theorem exec_inspect_step {s : State} (hs : s.status = .busy .inspect) : exec .inspect s = inspectStep s :=
  execInspect_step hs

/-- Fewer than 4 bytes: not even the magic can be read. -/
theorem inspectStep_without_magic {s : State} (hlen : s.inLen.toNat < 4) :
    inspectStep s = .next (s.raised .truncatedHeader) := by
  have hneed := (s.need_eq_false 0 4).mpr (by omega)
  simp [inspectStep, raiseError, hneed]

theorem inspectStep_wrong_magic {s : State} (hlen : 4 ≤ s.inLen.toNat) (hmagic : s.inWord 0 ≠ magic) :
    inspectStep s = .next (s.raised .notCompressed) := by
  have hneed := (s.need_eq_true 0 4).mpr (by omega)
  simp [inspectStep, raiseError, hneed, hmagic]

/-- The right magic in fewer than 8 bytes: the size cannot be read. -/
theorem inspectStep_without_size {s : State} (hlen : 4 ≤ s.inLen.toNat) (hend : s.inLen.toNat < headerLength)
    (hmagic : s.inWord 0 = magic) : inspectStep s = .next (s.raised .truncatedHeader) := by
  have hneed4 := (s.need_eq_true 0 4).mpr (by omega)
  have hneed8 := (s.need_eq_false 0 headerLength).mpr (by omega)
  simp [inspectStep, raiseError, hneed4, hneed8, hmagic]

/-- The four cases of 40_header.md R91. -/
theorem State.header_cases (s : State) :
    s.inLen.toNat < 4
    ∨ (4 ≤ s.inLen.toNat ∧ s.inWord 0 ≠ magic)
    ∨ (4 ≤ s.inLen.toNat ∧ s.inLen.toNat < headerLength ∧ s.inWord 0 = magic)
    ∨ (headerLength ≤ s.inLen.toNat ∧ s.inWord 0 = magic) := by
  unfold headerLength
  by_cases hmagic : s.inWord 0 = magic
  · simp only [hmagic, ne_eq, not_true_eq_false, and_false, and_true, false_or]
    omega
  · simp only [hmagic, ne_eq, not_false_eq_true, and_true]
    omega

/-- With 4 bytes or more, the magic alone decides whether the step is the NotCompressed error. -/
theorem inspectStep_eq_notCompressed_iff {s : State} (hlen : 4 ≤ s.inLen.toNat) :
    inspectStep s = .next (s.raised .notCompressed) ↔ s.inWord 0 ≠ magic := by
  refine ⟨fun h hmagic => ?_, inspectStep_wrong_magic hlen⟩
  rcases Nat.lt_or_ge s.inLen.toNat headerLength with hend | hend
  · rw [inspectStep_without_size hlen hend hmagic, Host.Outcome.next.injEq] at h
    exact absurd (show 2#4 = 1#4 from congrArg State.code h) (by decide)
  · rw [inspectStep_finishes hend hmagic, Host.Outcome.next.injEq] at h
    exact absurd (congrArg State.status h) nofun

/-- Of the input memory the INSPECT step reads the magic and the size, and no more. -/
theorem inspectStep_with_inMem {s t : State} {m : Memory}
    (hmagic : ({ s with inMem := m } : State).inWord 0 = s.inWord 0)
    (hsize : ({ s with inMem := m } : State).inWord 4 = s.inWord 4) (h : inspectStep s = .next t) :
    inspectStep { s with inMem := m } = .next { t with inMem := m } := by
  rcases s.header_cases with hlen | ⟨hlen, hm⟩ | ⟨hlen, hend, hm⟩ | ⟨hlen, hm⟩
  · rw [inspectStep_without_magic hlen] at h
    cases h
    exact inspectStep_without_magic hlen
  · rw [inspectStep_wrong_magic hlen hm] at h
    cases h
    exact inspectStep_wrong_magic hlen (hmagic.trans_ne hm)
  · rw [inspectStep_without_size hlen hend hm] at h
    cases h
    exact inspectStep_without_size hlen hend (hmagic.trans hm)
  · rw [inspectStep_finishes hlen hm] at h
    cases h
    exact (inspectStep_finishes (s := { s with inMem := m }) hlen (hmagic.trans hm)).trans (by rw [hsize]; rfl)

/-- While a DECODE is executing, INSPECT is ignored (10_state.md R41). -/
theorem execInspect_while_decoding {s : State} (hs : s.status = .busy .decode) : execInspect s = .next s := by
  simp only [execInspect, hs]

/-- INSPECT reads the input memory in its step only, and there no more than the magic and the size. -/
theorem execInspect_with_inMem {s t : State} {m : Memory}
    (hmagic : ({ s with inMem := m } : State).inWord 0 = s.inWord 0)
    (hsize : ({ s with inMem := m } : State).inWord 4 = s.inWord 4) (h : execInspect s = .next t) :
    execInspect { s with inMem := m } = .next { t with inMem := m } := by
  cases hb : s.busy with
  | false =>
    rcases execInspect_next h with ⟨hs, _⟩ | ⟨hs, _⟩ | ⟨hshare, rfl⟩
    · exact absurd hs (s.status_ne_busy hb _)
    · exact absurd hs (s.status_ne_busy hb _)
    · exact execInspect_starts (s := { s with inMem := m }) hb hshare
  | true =>
    obtain ⟨c, hc⟩ := s.busy_iff.mp hb
    cases c with
    | inspect =>
      rw [execInspect_step hc] at h
      exact (execInspect_step (s := { s with inMem := m }) hc).trans (inspectStep_with_inMem hmagic hsize h)
    | decode =>
      rw [execInspect_while_decoding hc] at h
      cases h
      exact execInspect_while_decoding (s := { s with inMem := m }) hc

/-! ## The frames -/

/-- INSPECT, its start and its step, changes STATE, CODE, SIZE and the completion mark at most (40_header.md R94). -/
theorem execInspect_frame {s t : State} (h : execInspect s = .next t) :
    t = { s with status := t.status, code := t.code, size := t.size, unseen := t.unseen } := by
  rcases execInspect_next h with ⟨_, h⟩ | ⟨_, rfl⟩ | ⟨_, rfl⟩
  · rcases inspectStep_next h with ⟨e, rfl⟩ | rfl <;> rfl
  · rfl
  · rfl

/-- The start of DECODE leaves the memories, IN_LEN, SIZE and the host's side but for the completion mark (41_dispatch.md R100). -/
theorem execDecode_frame {s t : State} (h : execDecode s = .next t) :
    t = { s with
      status := t.status, code := t.code, unseen := t.unseen
      inPtr := t.inPtr, outCount := t.outCount, bitIdx := t.bitIdx, cmd := t.cmd } := by
  rcases execDecode_next h with ⟨_, rfl⟩ | ⟨_, _, rfl⟩ <;> rfl

/-- A literal stores one byte at OUT_COUNT, and leaves STATE and CODE where it does not fail. -/
theorem litBody_frame {fr : Frame} {d : Byte} {s t : State} (h : litBody fr d s = .next t) :
    (∀ a, a < s.writeCursor ∨ s.writeCursor + 1 ≤ a → t.outByte a = s.outByte a)
    ∧ (t.status ≠ .error → t.status = s.status ∧ t.code = s.code) := by
  rcases litBody_next h with ⟨_, rfl⟩ | ⟨_, _, rfl⟩ | ⟨_, _, _, rfl⟩
  · exact ⟨fun _ _ => rfl, fun hne => absurd rfl hne⟩
  · exact ⟨fun _ _ => rfl, fun hne => absurd rfl hne⟩
  · exact ⟨fun a ha => s.storeOut_outByte_other d (by omega), fun _ => ⟨rfl, rfl⟩⟩

/-- A match stores its length of bytes from OUT_COUNT on, and leaves STATE and CODE where it does not fail. -/
theorem matchBody_frame {fr : Frame} {position : BitVec 12} {rawLength : BitVec 4} {s t : State}
    (h : matchBody fr position rawLength s = .next t) :
    (∀ a, a < s.writeCursor ∨ s.writeCursor + matchLength rawLength ≤ a → t.outByte a = s.outByte a)
    ∧ (t.status ≠ .error → t.status = s.status ∧ t.code = s.code) := by
  rcases matchBody_next h with ⟨_, rfl⟩ | ⟨_, _, rfl⟩ | ⟨_, _, _, rfl⟩ | ⟨_, _, _, u, hu, rfl⟩
  · exact ⟨fun _ _ => rfl, fun hne => absurd rfl hne⟩
  · exact ⟨fun _ _ => rfl, fun hne => absurd rfl hne⟩
  · exact ⟨fun _ _ => rfl, fun hne => absurd rfl hne⟩
  · refine ⟨fun a ha => copyBytes_outByte_outside hu ha, fun _ => ?_⟩
    rw [copyBytes_frame hu]
    exact ⟨rfl, rfl⟩

/-- A sentinel stores nothing. -/
theorem endBody_outByte {fr : Frame} {s t : State} (h : endBody fr s = .next t) (a : Nat) : t.outByte a = s.outByte a := by
  rcases endBody_next h with ⟨_, rfl⟩ | ⟨_, _, rfl⟩ | ⟨_, _, rfl⟩ <;> rfl

/-- With OUT_COUNT above SIZE a decode step can only fail, so its output needs no premise: it changes no byte but those OUT_COUNT passes. -/
theorem StepEnd.outByte_outside {fr : Frame} {s t : State} (e : StepEnd fr s t) {a : Nat}
    (ha : a < s.writeCursor ∨ t.writeCursor ≤ a) : t.outByte a = s.outByte a := by
  by_cases hle : s.outCount.toNat ≤ s.size.toNat
  · obtain ⟨_, _, hbytes⟩ := e.output hle
    exact hbytes a ha
  · cases e with
    | raised e h => rw [h, State.raised_outByte]
    | literal d h1 h2 => omega
    | sentinel h1 h2 => exact absurd (h2 ▸ le_rfl) hle
    | copied position rawLength u h1 h2 h3 => omega

end Machine

end Sys2Proof
end

section
/-! SUPPORT. The statements settled: the header and the frames. -/

namespace Sys2Proof.Machine

/-- Settles O20: INSPECT reads the input memory in its step only, and there the two words of the header. -/
theorem inspectReadsOnlyHeader : Obligations.InspectReadsOnlyHeader := by
  intro s t m hbytes h
  have hmagic : ({ s with inMem := m } : State).inWord 0 = s.inWord 0 := by simp [State.inWord, hbytes]
  have hsize : ({ s with inMem := m } : State).inWord 4 = s.inWord 4 := by simp [State.inWord, hbytes]
  refine ⟨execInspect_with_inMem hmagic hsize h, ?_⟩
  rw [execInspect_frame h]
  exact ⟨rfl, rfl, rfl, rfl, rfl, rfl, rfl⟩

/-- Settles O21: the magic is one word, and a word is its four bytes. -/
theorem magicIsFourExactBytes : Obligations.MagicIsFourExactBytes := by
  intro s hs hlen
  rw [exec_inspect_step hs, ← State.inWord_eq_magic]
  refine ⟨not_iff_not.mp ((inspectStep_eq_notCompressed_iff hlen).symm.trans not_not.symm), fun h0 _ _ _ => ?_⟩
  refine inspectStep_wrong_magic hlen fun hmagic => ?_
  obtain ⟨h, _⟩ := s.inWord_eq_magic.mp hmagic
  exact absurd (h0.symm.trans h) (by decide)

/-- Settles O41: each instruction changes what the ways it can end change. -/
theorem instructionFrames : Obligations.InstructionFrames := by
  intro i s t h
  cases i with
  | cmd c =>
    have hend := StepEnd.of_execCmd h
    obtain ⟨hinMem, hinLen, hsize, hplace, hunseen, hside⟩ := hend.unchanged
    exact ⟨⟨hinMem, hinLen, hplace, hside⟩, fun _ => hsize, fun _ _ => hunseen, by simp, by simp, by simp, by simp,
      fun _ _ _ => hend.outByte_outside, by simp⟩
  | lit d =>
    obtain ⟨hinMem, hinLen, hsize, hplace, hunseen, hside⟩ := (StepEnd.of_litBody h).unchanged
    obtain ⟨hbytes, hstatus⟩ := litBody_frame h
    exact ⟨⟨hinMem, hinLen, hplace, hside⟩, fun _ => hsize, fun _ _ => hunseen, by simp, by simp, by simp,
      fun _ => hbytes, by simp, fun _ => hstatus⟩
  | sentinel position =>
    obtain ⟨hinMem, hinLen, hsize, hplace, hunseen, hside⟩ := (StepEnd.of_endBody h).unchanged
    exact ⟨⟨hinMem, hinLen, hplace, hside⟩, fun _ => hsize, fun _ _ => hunseen, by simp, by simp, by simp,
      fun _ a _ => endBody_outByte h a, by simp, by simp⟩
  | backref position rawLength =>
    obtain ⟨hinMem, hinLen, hsize, hplace, hunseen, hside⟩ := (StepEnd.of_matchBody h).unchanged
    obtain ⟨hbytes, hstatus⟩ := matchBody_frame h
    exact ⟨⟨hinMem, hinLen, hplace, hside⟩, fun _ => hsize, fun _ _ => hunseen, by simp, by simp, by simp,
      fun _ => hbytes, by simp, fun _ => hstatus⟩
  | nop =>
    cases h
    simp
  | rsvd =>
    cases h
    simp
  | inspect =>
    rw [execInspect_frame h]
    simp [State.outByte]
  | decode =>
    rw [execDecode_frame h]
    simp [State.outByte]

/-- Settles O19. -/
theorem inspectStep_checks_in_order : Obligations.InspectStep := by
  intro s hs
  rw [exec_inspect_step hs]
  exact ⟨inspectStep_without_magic, inspectStep_wrong_magic, inspectStep_without_size, inspectStep_finishes⟩

end Sys2Proof.Machine
end

section
/-! SUPPORT. What a decode step that does not fail consumes, and why every DECODE ends (41_dispatch.md R104, R107). -/

namespace Sys2Proof.Machine

/-! ## The flag and the bytes a decode step consumes -/

/-- How many bytes the token of the next decode step with this frame has: by its flag (41_dispatch.md R104). -/
def State.tokenLength (s : State) (fr : Frame) : Nat := if flagOf fr.c s.bitIdx then 2 else 1

/-- A decode step with this frame has committed: one flag and the bytes of one token are consumed (41_dispatch.md R101). -/
structure Consumed (fr : Frame) (s t : State) : Prop where
  bitIdx : t.bitIdx = nextBitIdx s.bitIdx
  cmd : t.cmd = fr.c
  inPtr : t.inPtr.toNat = fr.p + s.tokenLength fr
  within : t.inPtr.toNat ≤ s.inLen.toNat

/-- A commit behind the token's bytes, all of them below IN_LEN, consumes it; what the body does beside the commit does not matter. -/
theorem Consumed.of_commit {fr : Frame} {s t : State} {n : Nat} (hn : s.tokenLength fr = n) (hp : fr.p + n ≤ s.inLen.toNat)
    (hidx : t.bitIdx = s.bitIdx) : Consumed fr s (t.commit (fr.p + n) fr.c) := by
  have hptr : (BitVec.ofNat 32 (fr.p + n)).toNat = fr.p + n := toNat_ofNat_of_le hp
  exact ⟨congrArg nextBitIdx hidx, rfl, hn ▸ hptr, hptr.trans_le hp⟩

theorem litBody_consumed {fr : Frame} {d : Byte} {s t : State} (hf : flagOf fr.c s.bitIdx = false)
    (h : litBody fr d s = .next t) (hne : t.status ≠ .error) : Consumed fr s t := by
  rcases litBody_next h with ⟨_, rfl⟩ | ⟨_, _, rfl⟩ | ⟨hp, _, _, rfl⟩
  · exact absurd rfl hne
  · exact absurd rfl hne
  · exact .of_commit (by simp [State.tokenLength, hf]) hp rfl

theorem endBody_consumed {fr : Frame} {s t : State} (hf : flagOf fr.c s.bitIdx = true)
    (h : endBody fr s = .next t) (hne : t.status ≠ .error) : Consumed fr s t := by
  rcases endBody_next h with ⟨_, rfl⟩ | ⟨_, _, rfl⟩ | ⟨hp, _, rfl⟩
  · exact absurd rfl hne
  · exact absurd rfl hne
  · obtain ⟨hidx, hcmd, hptr, hle⟩ := Consumed.of_commit (t := s) (by simp [State.tokenLength, hf]) hp rfl
    exact ⟨hidx, hcmd, hptr, hle⟩

theorem matchBody_consumed {fr : Frame} {position : BitVec 12} {rawLength : BitVec 4} {s t : State}
    (hf : flagOf fr.c s.bitIdx = true) (h : matchBody fr position rawLength s = .next t) (hne : t.status ≠ .error) :
    Consumed fr s t := by
  rcases matchBody_next h with ⟨_, rfl⟩ | ⟨_, _, rfl⟩ | ⟨_, _, _, rfl⟩ | ⟨hp, _, _, u, hu, rfl⟩
  · exact absurd rfl hne
  · exact absurd rfl hne
  · exact absurd rfl hne
  · exact .of_commit (by simp [State.tokenLength, hf]) hp (by rw [copyBytes_frame hu]; rfl)

theorem tokenStep_consumed {fr : Frame} {s t : State} (h : tokenStep fr s = .next t) (hne : t.status ≠ .error) :
    Consumed fr s t := by
  cases hf : flagOf fr.c s.bitIdx with
  | false =>
    rw [tokenStep_literal hf] at h
    exact litBody_consumed hf h hne
  | true =>
    by_cases hp : fr.p + 2 ≤ s.inLen.toNat
    · by_cases hr : rawLengthOf (s.inByte (fr.p + 1)) = 0#4
      · rw [tokenStep_sentinel hf hp hr] at h
        exact endBody_consumed hf h hne
      · rw [tokenStep_backref hf hp hr] at h
        exact matchBody_consumed hf h hne
    · rw [tokenStep_truncated hf (Nat.lt_of_not_le hp)] at h
      cases h
      exact absurd rfl hne

theorem engineStep_decode_consumed {s t : State} (hs : s.status = .busy .decode) (h : engineStep s = .next t)
    (hne : t.status ≠ .error) : Consumed s.frame s t :=
  tokenStep_consumed (engineStep_decode hs ▸ h) hne

theorem step_decode_consumed {s t : State} (hnext : s.engineNext = true) (hs : s.status = .busy .decode)
    (h : step s = .next t) (hne : t.status ≠ .error) : Consumed s.frame s t := by
  rw [step_engine hnext] at h
  obtain ⟨hidx, hcmd, hptr, hle⟩ := engineStep_decode_consumed (s := s.turnTaken) hs h hne
  exact ⟨hidx, hcmd, hptr, hle⟩

theorem nextBitIdx_toNat (idx : BitVec 3) : (nextBitIdx idx).toNat = (idx.toNat + 1) % 8 := BitVec.toNat_add idx 1#3

theorem State.tokenStart_eq_add (s : State) : s.tokenStart = s.inPtr.toNat + (if s.bitIdx = 0#3 then 1 else 0) := by
  unfold State.tokenStart
  split <;> rfl

/-- IN_PTR after a step that consumed its token, from the registers: a command byte if BIT_IDX was 0, then the token by its flag. -/
theorem Consumed.inPtr_eq {s t : State} (h : Consumed s.frame s t) :
    t.inPtr.toNat = s.inPtr.toNat + (if s.bitIdx = 0#3 then 1 else 0)
      + (if t.cmd.getLsbD s.bitIdx.toNat then 2 else 1) := by
  rw [h.inPtr, h.cmd, ← s.tokenStart_eq_add]
  rfl

theorem Consumed.inPtr_lt {s t : State} (h : Consumed s.frame s t) : s.inPtr.toNat < t.inPtr.toNat := by
  rw [h.inPtr_eq]
  split <;> split <;> omega

/-! ## A DECODE ends -/

/-- `STATE` is DONE or ERROR. -/
def State.ended (s : State) : Prop := s.status = .done ∨ s.status = .error

/-- How many engine steps a DECODE at this point can still take: one for each byte left, and one to find none (41_dispatch.md R107). -/
def State.stepsLeft (s : State) : Nat := s.inLen.toNat - s.inPtr.toNat + 1

theorem StepEnd.ended_or_status {fr : Frame} {s t : State} (e : StepEnd fr s t) : t.ended ∨ t.status = s.status := by
  rcases e with ⟨e, rfl⟩ | ⟨d, _, _, _, rfl⟩ | ⟨_, _, rfl⟩ | ⟨position, rawLength, u, _, _, _, hu, rfl⟩
  · exact .inl (.inr rfl)
  · exact .inr rfl
  · exact .inl (.inl rfl)
  · exact .inr (by rw [copyBytes_frame hu]; rfl)

/-- A decode step ends the command, or it goes on with fewer steps left. -/
theorem engineStep_decode_progress {s t : State} (hs : s.status = .busy .decode) (h : engineStep s = .next t) :
    t.ended ∨ (t.status = .busy .decode ∧ t.turns = s.turns ∧ t.stepsLeft < s.stepsLeft) := by
  have hend := engineStep_decode_next hs h
  rcases hend.ended_or_status with hended | hstatus
  · exact .inl hended
  · have hbusy : t.status = .busy .decode := hstatus.trans hs
    have hcons := engineStep_decode_consumed hs h (by simp [hbusy])
    obtain ⟨_, hlen, _, _, _, hturns, _⟩ := hend.unchanged
    have hlt := hcons.inPtr_lt
    have hle := hcons.within
    refine .inr ⟨hbusy, hturns, ?_⟩
    rw [State.stepsLeft, State.stepsLeft, hlen]
    omega

theorem engineTurns_engine {s : State} (h : s.engineNext = true) (n : Nat) :
    engineTurns (n + 1) s.turns = engineTurns n s.turns.tail + 1 := by
  unfold State.engineNext at h
  split at h
  next hturns =>
    rw [hturns]
    cases n <;> rfl
  next hturns => rw [hturns, engineTurns, List.tail_cons]
  next => cases h

/-- With no turn listed every turn is the engine's. -/
@[simp] theorem engineTurns_nil (n : Nat) : engineTurns n [] = n := by
  cases n <;> rfl

theorem run_succ_next {n : Nat} {s t : State} (h : core.run (n + 1) s = .next t) :
    ∃ u, step s = .next u ∧ core.run n u = .next t := by
  cases hstep : step s with
  | next u => exact ⟨u, rfl, (run_succ hstep).symm.trans h⟩
  | fault r =>
    have hcore : core.step s = .fault r := hstep
    simp [Host.Core.run, hcore] at h
  | refused r =>
    have hcore : core.step s = .refused r := hstep
    simp [Host.Core.run, hcore] at h

theorem State.host_turn_of_engineNext {s : State} (h : s.engineNext = false) : ∃ act rest, s.turns = .host act :: rest := by
  unfold State.engineNext at h
  split at h
  · cases h
  · cases h
  next act rest hturns => exact ⟨act, rest, hturns⟩

/-- While a DECODE is executing, a turn other than a reset ends it or leaves enough turns of the engine for the steps left: the engine's own turn
leaves fewer steps, and a turn of the host reaches nothing of the engine. -/
theorem step_decode_progress {n : Nat} {s t : State} (hs : s.status = .busy .decode)
    (hreset : .host .reset ∉ s.turns.take (n + 1)) (hstep : step s = .next t)
    (hn : s.stepsLeft ≤ engineTurns (n + 1) s.turns) :
    t.ended ∨ (t.status = .busy .decode ∧ t.turns = s.turns.tail ∧ t.stepsLeft ≤ engineTurns n s.turns.tail) := by
  cases hnext : s.engineNext with
  | true =>
    rw [step_engine hnext] at hstep
    rw [engineTurns_engine hnext] at hn
    rcases engineStep_decode_progress (s := s.turnTaken) hs hstep with hended | ⟨ht, hturns, hleft⟩
    · exact .inl hended
    · have hfewer : t.stepsLeft < s.stepsLeft := hleft
      exact .inr ⟨ht, hturns, by omega⟩
  | false =>
    obtain ⟨act, rest, hturns⟩ := State.host_turn_of_engineNext hnext
    rw [step_host hturns] at hstep
    rw [hturns, engineTurns] at hn
    rw [hturns, List.take_succ_cons, List.mem_cons] at hreset
    have hact : act ≠ .reset := fun h => hreset (.inl (by rw [h]))
    obtain ⟨r, u, d, rfl⟩ := hostAct_busy (s := s.turnTaken) (s.busy_iff.mpr ⟨_, hs⟩) hact hstep
    exact .inr ⟨hs, rfl, hturns ▸ hn⟩

/-- A run with as many engine turns as a DECODE has steps left, and no reset, ends the DECODE on its way. -/
theorem decode_ends_in_run {n : Nat} {s t : State} (hs : s.status = .busy .decode)
    (hreset : .host .reset ∉ s.turns.take n) (hrun : core.run n s = .next t) (hn : s.stepsLeft ≤ engineTurns n s.turns) :
    ∃ m u, m ≤ n ∧ core.run m s = .next u ∧ u.ended := by
  induction n generalizing s with
  | zero => exact absurd hn (Nat.not_succ_le_zero _)
  | succ n ih =>
    obtain ⟨v, hstep, hrest⟩ := run_succ_next hrun
    rcases step_decode_progress hs hreset hstep hn with hended | ⟨hv, hturns, hleft⟩
    · exact ⟨1, v, by omega, run_succ hstep, hended⟩
    · have hreset' : .host .reset ∉ v.turns.take n := by
        rw [hturns]
        exact fun hmem => hreset (List.mem_of_mem_tail (by rwa [List.tail_take_eq_take_tail]))
      obtain ⟨m, u, hm, hmrun, hu⟩ := ih hv hreset' hrest (hturns ▸ hleft)
      exact ⟨m + 1, u, by omega, (run_succ hstep).trans hmrun, hu⟩

theorem engineStep_turns {s t : State} (h : engineStep s = .next t) : t.turns = s.turns := by
  rcases engineStep_next h with ⟨_, rfl⟩ | ⟨_, ⟨e, rfl⟩ | rfl⟩ | ⟨_, hend⟩
  · rfl
  · rfl
  · rfl
  · obtain ⟨_, _, _, _, _, hturns, _⟩ := hend.unchanged
    exact hturns

/-- With no turn of the host listed, a run from a state that meets the invariant never stops. -/
theorem run_completes {n : Nat} {s : State} (h : StateInv s) (hturns : s.turns = []) : ∃ t, core.run n s = .next t := by
  induction n generalizing s with
  | zero => exact ⟨s, rfl⟩
  | succ n ih =>
    have heq : step s = engineStep s := by rw [step, hturns]
    obtain ⟨u, hu⟩ := engineStep_completes h.sizeCap
    obtain ⟨t, ht⟩ := ih (engineStep_keeps_stateInv h hu) ((engineStep_turns hu).trans hturns)
    exact ⟨t, (run_succ (heq.trans hu)).trans ht⟩

end Sys2Proof.Machine
end

section
/-! SUPPORT. The statements settled: what a decode step consumes, and the end of every DECODE. -/

namespace Sys2Proof.Machine

/-- Settles O38. -/
theorem decodeStepConsumesOneFlag : Obligations.DecodeStepConsumesOneFlag := by
  intro s t hnext hs hstep hne
  have hcons := step_decode_consumed hnext hs hstep hne
  exact ⟨hcons.bitIdx ▸ nextBitIdx_toNat s.bitIdx, hcons.cmd, hcons.inPtr_eq, hcons.within⟩

/-- Settles O45: each decode step that goes on leaves fewer steps, so a run with enough turns of the engine ends the DECODE; with no turn listed
all turns are the engine's, and the invariant keeps the run from stopping. -/
theorem decodeAlwaysEnds : Obligations.DecodeAlwaysEnds := by
  refine ⟨fun s t hnext hs hstep hbusy => ?_, fun s h hs hturns => ?_, fun s t n _ hs => decode_ends_in_run hs⟩
  · have hne : t.status ≠ .error := fun herr => by simp [State.busy, Status.isBusy, herr] at hbusy
    have hcons := step_decode_consumed hnext hs hstep hne
    exact ⟨hcons.inPtr_eq, hcons.inPtr_lt, hcons.within⟩
  · obtain ⟨t, hrun⟩ := run_completes (n := s.stepsLeft) h hturns
    have hn : s.stepsLeft ≤ engineTurns s.stepsLeft s.turns := by rw [hturns, engineTurns_nil]
    exact decode_ends_in_run hs (by simp [hturns]) hrun hn

end Sys2Proof.Machine
end

section
/-! SUPPORT. The item behind a command byte (41_dispatch.md R102), and the closed form of the copy (43_match.md R125). -/

namespace Sys2Proof.Machine

/-! ## The token step and the decoder -/

/-- Where the bytes at the frame's offset decode under its flag, the token step is exec of their item. -/
theorem tokenStep_of_decodes {s : State} {i : Instr} {bytes rest : List Byte}
    (hbytes : s.holdsAt s.frame.p bytes)
    (hd : decodeStream (.token (flagOf s.frame.c s.bitIdx)) bytes = .ok (i, rest)) :
    tokenStep s.frame s = exec i s := by
  rcases decodeStream_ok hd with ⟨_, hsel, _⟩ | ⟨d, hsel, rfl, rfl⟩ | ⟨b0, b1, hsel, rfl, hr, rfl⟩
    | ⟨b0, b1, hsel, rfl, hr, rfl⟩
  · cases hsel
  · obtain ⟨_, rfl, _⟩ := State.holdsAt_cons.mp hbytes
    exact tokenStep_literal (Select.token.inj hsel)
  · obtain ⟨_, rfl, hrest⟩ := State.holdsAt_cons.mp hbytes
    obtain ⟨hp, rfl, _⟩ := State.holdsAt_cons.mp hrest
    exact tokenStep_sentinel (Select.token.inj hsel) hp hr
  · obtain ⟨_, rfl, hrest⟩ := State.holdsAt_cons.mp hbytes
    obtain ⟨hp, rfl, _⟩ := State.holdsAt_cons.mp hrest
    exact tokenStep_backref (Select.token.inj hsel) hp hr

theorem State.holdsAt_inBytes (s : State) (n p : Nat) : s.holdsAt p (s.inBytes n p) := by
  induction n generalizing p with
  | zero => exact s.holdsAt_nil p
  | succ n ih =>
    rw [State.inBytes]
    split
    next hp => exact State.holdsAt_cons.mpr ⟨hp, rfl, ih (p + 1)⟩
    next hp => exact s.holdsAt_nil p

theorem State.inBytes_length {s : State} {n p : Nat} (h : p + n ≤ s.inLen.toNat) : (s.inBytes n p).length = n := by
  induction n generalizing p with
  | zero => rfl
  | succ n ih => rw [State.inBytes, if_pos (by omega), List.length_cons, ih (by omega)]

/-- Bytes that do not decode are missing, and then the token step is TruncatedInput (41_dispatch.md R103). -/
theorem tokenStep_of_reject {fr : Frame} {s : State} {sel : Select} {r : Reject}
    (hsel : sel = .token (flagOf fr.c s.bitIdx)) (hd : decodeStream sel (s.inBytes sel.length fr.p) = .error r) :
    tokenStep fr s = raiseError .truncatedInput s := by
  have hshort : s.inLen.toNat < fr.p + sel.length := by
    by_contra hle
    obtain ⟨i, hi⟩ := decodeStream_of_length_le (State.inBytes_length (Nat.le_of_not_lt hle)).ge
    rw [hd] at hi
    cases hi
  cases hf : flagOf fr.c s.bitIdx with
  | false =>
    rw [hsel, hf] at hshort
    exact tokenStep_missing hshort
  | true =>
    rw [hsel, hf] at hshort
    exact tokenStep_truncated hf hshort

/-! ## A command byte and the token behind it -/

theorem execCmd_truncated {s : State} (c : Byte) (hp : s.inLen.toNat ≤ s.inPtr.toNat) :
    execCmd c s = raiseError .truncatedInput s := by
  have hneed := (s.need_eq_false s.inPtr.toNat 1).mpr (Nat.lt_succ_of_le hp)
  simp [execCmd, hneed]

theorem flagOf_zero {idx : BitVec 3} (h0 : idx = 0#3) (c : Byte) : flagOf c idx = c.getLsbD 0 := by
  rw [h0]
  rfl

/-- IN_PTR advanced by a number of bytes, as a word. -/
theorem ofNat_toNat_add (w : Word) (n : Nat) : BitVec.ofNat 32 (w.toNat + n) = w + BitVec.ofNat 32 n := by
  rw [BitVec.ofNat_add, BitVec.ofNat_toNat, BitVec.setWidth_eq]

/-- The commit `n` bytes behind IN_PTR by a step that fetched its command byte. -/
theorem State.commit_of_command {s : State} (h0 : s.bitIdx = 0#3) {w : Word} {p n : Nat} (hp : p = w.toNat + n) (c : Byte) :
    s.commit p c = { s with inPtr := w + BitVec.ofNat 32 n, cmd := c, bitIdx := 1#3 } := by
  rw [State.commit, hp, ofNat_toNat_add, h0]
  rfl

theorem execCmd_literal_completes {s : State} {c : Byte} (h0 : s.bitIdx = 0#3) (hc : c.getLsbD 0 = false)
    (hp : s.inPtr.toNat + 2 ≤ s.inLen.toNat) (hn : s.outCount.toNat < s.size.toNat)
    (hcap : s.size.toNat ≤ s.place.outCap) :
    execCmd c s = .next { s with
      outMem := Memory.set s.outMem s.writeCursor (s.inByte (s.inPtr.toNat + 1))
      outCount := s.outCount + 1#32, inPtr := s.inPtr + 2#32, cmd := c, bitIdx := 1#3 } := by
  have hcount : BitVec.ofNat 32 (s.outCount.toNat + 1) = s.outCount + 1#32 := ofNat_toNat_add s.outCount 1
  rw [execCmd_eq_tokenStep (by omega), tokenStep_literal ((flagOf_zero h0 c).trans hc), litBody_commits _ hp hn hcap,
    ← hcount]
  exact congrArg Host.Outcome.next
    (State.commit_of_command (s := (s.storeOut _ _).emitted 1) h0 (w := s.inPtr) (n := 2) rfl c)

theorem execCmd_sentinel_completes {s : State} {c : Byte} (h0 : s.bitIdx = 0#3) (hc : c.getLsbD 0 = true)
    (hp : s.inPtr.toNat + 3 ≤ s.inLen.toNat) (hr : rawLengthOf (s.inByte (s.inPtr.toNat + 2)) = 0#4)
    (hn : s.outCount = s.size) :
    execCmd c s = .next { s with
      inPtr := s.inPtr + 3#32, cmd := c, bitIdx := 1#3, status := .done, code := 0#4 } := by
  rw [execCmd_eq_tokenStep (by omega), tokenStep_sentinel ((flagOf_zero h0 c).trans hc) hp hr, endBody_finishes hp hn]
  exact congrArg (fun t : State => Host.Outcome.next t.finished) (State.commit_of_command h0 (w := s.inPtr) (n := 3) rfl c)

theorem execCmd_backref_completes {s : State} {c : Byte} {position : BitVec 12} {rawLength : BitVec 4}
    (h0 : s.bitIdx = 0#3) (hc : c.getLsbD 0 = true) (hp : s.inPtr.toNat + 3 ≤ s.inLen.toNat)
    (hpos : position = positionOf (s.inByte (s.inPtr.toNat + 1)) (s.inByte (s.inPtr.toNat + 2)))
    (hraw : rawLength = rawLengthOf (s.inByte (s.inPtr.toNat + 2))) (hne : rawLength ≠ 0#4)
    (hd : matchDistance position ≤ s.outCount.toNat)
    (hn : s.outCount.toNat + matchLength rawLength ≤ s.size.toNat) (hcap : s.size.toNat ≤ s.place.outCap) :
    ∃ u, copyBytes (matchLength rawLength) (s.matchSource position) s.writeCursor s = .ok u
      ∧ execCmd c s = .next { s with
        outMem := u.outMem, outCount := BitVec.ofNat 32 (s.outCount.toNat + matchLength rawLength)
        inPtr := s.inPtr + 3#32, cmd := c, bitIdx := 1#3 } := by
  obtain ⟨u, hu, hbody⟩ :=
    matchBody_commits (fr := { p := s.inPtr.toNat + 1, c := c }) hp hd hn hcap
  refine ⟨u, hu, ?_⟩
  rw [execCmd_eq_tokenStep (by omega), tokenStep_backref ((flagOf_zero h0 c).trans hc) hp (hraw ▸ hne), ← hpos, ← hraw,
    hbody, copyBytes_frame hu]
  exact congrArg Host.Outcome.next
    (State.commit_of_command (s := ({ s with outMem := u.outMem } : State).emitted _) h0 (w := s.inPtr) (n := 3) rfl c)

/-- Not BUSY, with disjoint memories and a large enough output memory, DECODE starts. -/
theorem execDecode_starts {s : State} (hb : s.busy = false) (hs : s.memoriesShare = false)
    (hc : s.size.toNat ≤ s.place.outCap) : execDecode s = .next s.decodeStarted := by
  simp [execDecode, hb, s.launchRefusal_decode_eq_none.mpr ⟨hs, hc⟩]

/-! ## The closed form of the copy -/

/-- A copy from `d` before its destination repeats the `d` bytes there, with period `d` where they overlap (43_match.md R125). -/
theorem copyBytes_get {n d dst i : Nat} {s u : State} (hd : 1 ≤ d) (hle : d ≤ dst)
    (h : copyBytes n (dst - d) dst s = .ok u) (hi : i < n) :
    Memory.get u.outMem (dst + i) = some (s.outByte (dst - d + i % d)) := by
  induction n generalizing dst s i with
  | zero => exact absurd hi (Nat.not_lt_zero i)
  | succ n ih =>
    simp only [copyBytes] at h
    split at h
    · cases h
    · split at h
      · cases h
      · have hsrc : dst - d + 1 = dst + 1 - d := by omega
        rw [hsrc] at h
        cases i with
        | zero =>
          rw [copyBytes_outside h (by omega), State.storeOut_outMem, Nat.add_zero, Memory.get_set_same, Nat.zero_mod,
            Nat.add_zero]
        | succ j =>
          have hj := ih (by omega) h (Nat.lt_of_succ_lt_succ hi)
          have hlt : j % d < d := Nat.mod_lt j hd
          rw [Nat.add_comm j 1, ← Nat.add_assoc, hj, Nat.add_comm 1 j, ← Nat.mod_add_mod]
          by_cases hwrap : j % d + 1 = d
          · have hself : dst + 1 - d + j % d = dst := by omega
            rw [hself, State.storeOut_outByte_same, hwrap, Nat.mod_self, Nat.add_zero]
          · rw [State.storeOut_outByte_other _ _ (by omega), Nat.mod_eq_of_lt (show j % d + 1 < d by omega)]
            congr 2
            omega

end Sys2Proof.Machine
end

section
/-! SUPPORT. The statements settled: the dispatch of a command byte, the engine's step, and the start of DECODE. -/

namespace Sys2Proof.Machine

/-- Settles O33: CMD is the token step behind it, and the token decoded there is exec of the same step. -/
theorem commandByteStepIsItsTokensStep : Obligations.CommandByteStepIsItsTokensStep := by
  intro s c h0
  refine ⟨execCmd_truncated c, fun hp hc sel hsel => ?_⟩
  have hframe : s.frame = { p := s.inPtr.toNat + 1, c := c } := hc ▸ State.frame_of_command h0
  have hflag : sel = .token (flagOf s.frame.c s.bitIdx) := by rw [hsel, hframe, flagOf_zero h0]
  have hcmd : exec (.cmd c) s = tokenStep s.frame s := hframe ▸ execCmd_eq_tokenStep hp
  have hp1 : s.inPtr.toNat + 1 = s.frame.p := by rw [hframe]
  rw [hcmd, hp1]
  exact ⟨fun i rest hd => tokenStep_of_decodes (s.holdsAt_inBytes _ _) (hflag ▸ hd),
    fun r hd => tokenStep_of_reject hflag hd⟩

/-- Settles O34. -/
theorem commandByteCompletes : Obligations.CommandByteCompletes := by
  intro s c h0
  refine ⟨execCmd_literal_completes h0, execCmd_sentinel_completes h0, ?_⟩
  intro hc hp position rawLength hpos hraw hne hd hn hcap
  obtain ⟨u, hu, hexec⟩ := execCmd_backref_completes h0 hc hp hpos hraw hne hd hn hcap
  exact ⟨u.outMem, hexec, fun i hi => copyBytes_get (matchDistance_bounds position).1 hd hu hi,
    fun a ha => copyBytes_outside hu ha⟩

/-- Settles O35: the turn is consumed first, and the fetch does not depend on the turns. -/
theorem stepRunsDecodedItem : Obligations.StepRunsDecodedItem := by
  intro s hnext
  rw [step_engine hnext, ← fetchItem_turnTaken]
  refine ⟨fun hs => ?_, fun hs => ⟨fun i hi => ?_, fun r hr => ?_⟩⟩
  · simp only [engineStep, State.turnTaken_status, hs]
  · simp only [engineStep, State.turnTaken_status, hs, hi]
  · simp only [engineStep, State.turnTaken_status, hs, hr]
    rfl

/-- Settles O23: the start of DECODE is `decodeStarted`, written out in the statement. -/
theorem decodeStart : Obligations.DecodeStart := fun _ => execDecode_starts

end Sys2Proof.Machine
end

section
/-! SUPPORT. What a decode step depends on (41_dispatch.md R109): two states that agree in the decoder's registers, in the token bytes of the
container and in the output so far go on agreeing. -/

namespace Sys2Proof.Machine

/-- Two states agree in all that R109 names as inputs of the decode steps, and in the registers: STATE, CODE, IN_LEN, SIZE, the decoder's
registers, the input bytes from TOKEN_BASE to IN_LEN, and the output so far. -/
structure AgreeForDecode (s t : State) : Prop where
  status : t.status = s.status
  code : t.code = s.code
  inLen : t.inLen = s.inLen
  size : t.size = s.size
  outCount : t.outCount = s.outCount
  inPtr : t.inPtr = s.inPtr
  cmd : t.cmd = s.cmd
  bitIdx : t.bitIdx = s.bitIdx
  input : ∀ a, tokenBase ≤ a → a < s.inLen.toNat → t.inByte a = s.inByte a
  output : t.output = s.output

theorem output_eq_iff {s t : State} (h : t.outCount = s.outCount) :
    t.output = s.output ↔ ∀ a, a < s.outCount.toNat → t.outByte a = s.outByte a := by
  simp only [State.output, h, List.map_inj_left, List.mem_range]

/-! ## The ends of a step keep agreement -/

theorem AgreeForDecode.turnTaken {s t : State} (h : AgreeForDecode s t) : AgreeForDecode s.turnTaken t.turnTaken :=
  { h with }

theorem AgreeForDecode.raised {s t : State} (h : AgreeForDecode s t) (e : ErrorKind) :
    AgreeForDecode (s.raised e) (t.raised e) :=
  { h with status := rfl, code := rfl }

theorem AgreeForDecode.finished {s t : State} (h : AgreeForDecode s t) : AgreeForDecode s.finished t.finished :=
  { h with status := rfl, code := rfl }

theorem AgreeForDecode.commit {s t : State} (h : AgreeForDecode s t) (p : Nat) (c : Byte) :
    AgreeForDecode (s.commit p c) (t.commit p c) :=
  { h with inPtr := rfl, cmd := rfl, bitIdx := congrArg nextBitIdx h.bitIdx }

/-- Output memories that agree below the new OUT_COUNT keep agreement through the step that has stored them. -/
theorem AgreeForDecode.emitted {s t : State} (h : AgreeForDecode s t) {m k : Memory} {n : Nat}
    (hn : s.outCount.toNat + n ≤ s.size.toNat)
    (hbytes : (List.range (t.outCount.toNat + n)).map ({ t with outMem := k } : State).outByte
      = (List.range (s.outCount.toNat + n)).map ({ s with outMem := m } : State).outByte) :
    AgreeForDecode (({ s with outMem := m } : State).emitted n) (({ t with outMem := k } : State).emitted n) :=
  have hcount : (({ t with outMem := k } : State).emitted n).outCount = (({ s with outMem := m } : State).emitted n).outCount :=
    congrArg (fun w : Word => BitVec.ofNat 32 (w.toNat + n)) h.outCount
  { h with
    outCount := hcount
    output := by
      rw [h.outCount] at hbytes
      rw [State.output, State.output, hcount, emitted_outCount_toNat (s := { s with outMem := m }) hn]
      exact hbytes }

/-! ## The bodies that fail -/

theorem litBody_truncated {fr : Frame} {s : State} (d : Byte) (hp : s.inLen.toNat < fr.p + 1) :
    litBody fr d s = .next (s.raised .truncatedInput) := by
  have hneed := (s.need_eq_false fr.p 1).mpr hp
  simp [litBody, raiseError, hneed]

theorem litBody_overflows {fr : Frame} {s : State} (d : Byte) (hp : fr.p + 1 ≤ s.inLen.toNat)
    (hn : s.size.toNat < s.outCount.toNat + 1) : litBody fr d s = .next (s.raised .outputOverflow) := by
  have hneed := (s.need_eq_true fr.p 1).mpr hp
  have hroom := (s.room_eq_false 1).mpr hn
  simp [litBody, raiseError, hneed, hroom]

theorem endBody_truncated {fr : Frame} {s : State} (hp : s.inLen.toNat < fr.p + 2) :
    endBody fr s = .next (s.raised .truncatedInput) := by
  have hneed := (s.need_eq_false fr.p 2).mpr hp
  simp [endBody, raiseError, hneed]

theorem endBody_mismatch {fr : Frame} {s : State} (hp : fr.p + 2 ≤ s.inLen.toNat) (hn : s.outCount ≠ s.size) :
    endBody fr s = .next (s.raised .sizeMismatch) := by
  have hneed := (s.need_eq_true fr.p 2).mpr hp
  simp [endBody, raiseError, hneed, hn]

section
variable {fr : Frame} {s : State} {position : BitVec 12} {rawLength : BitVec 4}

theorem matchBody_truncated (hp : s.inLen.toNat < fr.p + 2) :
    matchBody fr position rawLength s = .next (s.raised .truncatedInput) := by
  have hneed := (s.need_eq_false fr.p 2).mpr hp
  simp [matchBody, raiseError, hneed]

theorem matchBody_reaches_before_start (hp : fr.p + 2 ≤ s.inLen.toNat) (hd : s.outCount.toNat < matchDistance position) :
    matchBody fr position rawLength s = .next (s.raised .invalidBackReference) := by
  have hneed := (s.need_eq_true fr.p 2).mpr hp
  have hdist : s.writeCursor < matchDistance position := hd
  simp [matchBody, raiseError, hneed, hdist]

theorem matchBody_overflows (hp : fr.p + 2 ≤ s.inLen.toNat) (hd : matchDistance position ≤ s.outCount.toNat)
    (hn : s.size.toNat < s.outCount.toNat + matchLength rawLength) :
    matchBody fr position rawLength s = .next (s.raised .outputOverflow) := by
  have hneed := (s.need_eq_true fr.p 2).mpr hp
  have hroom := (s.room_eq_false (matchLength rawLength)).mpr hn
  have hdist : ¬ s.writeCursor < matchDistance position := Nat.not_lt.mpr hd
  simp [matchBody, raiseError, hneed, hdist, hroom]

end

/-! ## The bodies keep agreement -/

section
variable {fr : Frame} {s t s' : State} (h : AgreeForDecode s t)
include h

theorem litBody_agrees {d : Byte} (hc : t.size.toNat ≤ t.place.outCap) (hstep : litBody fr d s = .next s') :
    ∃ t', litBody fr d t = .next t' ∧ AgreeForDecode s' t' := by
  rcases litBody_next hstep with ⟨hp, rfl⟩ | ⟨hp, hn, rfl⟩ | ⟨hp, hn, _, rfl⟩
  · exact ⟨_, litBody_truncated d (h.inLen ▸ hp), h.raised _⟩
  · exact ⟨_, litBody_overflows d (h.inLen ▸ hp) (h.size ▸ h.outCount ▸ hn), h.raised _⟩
  · have hbytes := (range_map_storeOut t t.writeCursor d).trans
      ((congrArg (· ++ [d]) h.output).trans (range_map_storeOut s s.writeCursor d).symm)
    exact ⟨_, litBody_commits d (h.inLen ▸ hp) (h.size ▸ h.outCount ▸ hn) hc, (h.emitted hn hbytes).commit _ _⟩

theorem endBody_agrees (hstep : endBody fr s = .next s') : ∃ t', endBody fr t = .next t' ∧ AgreeForDecode s' t' := by
  rcases endBody_next hstep with ⟨hp, rfl⟩ | ⟨hp, hn, rfl⟩ | ⟨hp, hn, rfl⟩
  · exact ⟨_, endBody_truncated (h.inLen ▸ hp), h.raised _⟩
  · exact ⟨_, endBody_mismatch (h.inLen ▸ hp) (h.size ▸ h.outCount ▸ hn), h.raised _⟩
  · exact ⟨_, endBody_finishes (h.inLen ▸ hp) (h.size ▸ h.outCount ▸ hn), (h.commit _ _).finished⟩

/-- Both copies are the one copy of the output so far (00_scope.md R13). -/
theorem matchBody_agrees {position : BitVec 12} {rawLength : BitVec 4} (hc : t.size.toNat ≤ t.place.outCap)
    (hstep : matchBody fr position rawLength s = .next s') :
    ∃ t', matchBody fr position rawLength t = .next t' ∧ AgreeForDecode s' t' := by
  rcases matchBody_next hstep with ⟨hp, rfl⟩ | ⟨hp, hd, rfl⟩ | ⟨hp, hd, hn, rfl⟩ | ⟨hp, hd, hn, u, hu, rfl⟩
  · exact ⟨_, matchBody_truncated (h.inLen ▸ hp), h.raised _⟩
  · exact ⟨_, matchBody_reaches_before_start (h.inLen ▸ hp) (h.outCount ▸ hd), h.raised _⟩
  · exact ⟨_, matchBody_overflows (h.inLen ▸ hp) (h.outCount ▸ hd) (h.size ▸ h.outCount ▸ hn), h.raised _⟩
  · have hdt : matchDistance position ≤ t.outCount.toNat := h.outCount ▸ hd
    obtain ⟨v, hv, hbody⟩ := matchBody_commits (fr := fr) (h.inLen ▸ hp) hdt (h.size ▸ h.outCount ▸ hn) hc
    have hpos := (matchDistance_bounds position).1
    have hbytes := (copyBytes_appendCopy hpos hdt hv).trans
      ((congrArg (appendCopy _ _) h.output).trans (copyBytes_appendCopy hpos hd hu).symm)
    refine ⟨_, hbody, ?_⟩
    rw [copyBytes_frame hu, copyBytes_frame hv] at hbytes ⊢
    exact (h.emitted hn hbytes).commit _ _

/-- The token's bytes lie from TOKEN_BASE on and below IN_LEN, or they are missing. -/
theorem tokenStep_agrees (hbase : tokenBase ≤ fr.p) (hc : t.size.toNat ≤ t.place.outCap)
    (hstep : tokenStep fr s = .next s') : ∃ t', tokenStep fr t = .next t' ∧ AgreeForDecode s' t' := by
  by_cases hp1 : fr.p + 1 ≤ s.inLen.toNat
  · have hb0 := h.input fr.p hbase hp1
    cases hf : flagOf fr.c s.bitIdx with
    | false =>
      rw [tokenStep_literal hf] at hstep
      rw [tokenStep_literal (h.bitIdx ▸ hf), hb0]
      exact litBody_agrees h hc hstep
    | true =>
      by_cases hp2 : fr.p + 2 ≤ s.inLen.toNat
      · have hb1 := h.input (fr.p + 1) (Nat.le_succ_of_le hbase) hp2
        by_cases hr : rawLengthOf (s.inByte (fr.p + 1)) = 0#4
        · rw [tokenStep_sentinel hf hp2 hr] at hstep
          rw [tokenStep_sentinel (h.bitIdx ▸ hf) (h.inLen ▸ hp2) (hb1 ▸ hr)]
          exact endBody_agrees h hstep
        · rw [tokenStep_backref hf hp2 hr] at hstep
          rw [tokenStep_backref (h.bitIdx ▸ hf) (h.inLen ▸ hp2) (hb1 ▸ hr), hb0, hb1]
          exact matchBody_agrees h hc hstep
      · rw [tokenStep_truncated hf (Nat.lt_of_not_le hp2)] at hstep
        cases hstep
        exact ⟨_, tokenStep_truncated (h.bitIdx ▸ hf) (h.inLen ▸ Nat.lt_of_not_le hp2), h.raised _⟩
  · rw [tokenStep_missing (Nat.lt_of_not_le hp1)] at hstep
    cases hstep
    exact ⟨_, tokenStep_missing (h.inLen ▸ Nat.lt_of_not_le hp1), h.raised _⟩

/-- The command byte fetched is one of the token bytes, where it is not missing. -/
theorem AgreeForDecode.frame (hbase : tokenBase ≤ s.inPtr.toNat) (hp : s.inPtr.toNat < s.inLen.toNat) :
    t.frame = s.frame := by
  simp only [State.frame, State.tokenStart, State.groupByte, h.bitIdx, h.inPtr, h.cmd, h.input _ hbase hp]

theorem engineStep_decode_agrees (hs : s.status = .busy .decode) (hbase : tokenBase ≤ s.inPtr.toNat)
    (hc : t.size.toNat ≤ t.place.outCap) (hstep : engineStep s = .next s') :
    ∃ t', engineStep t = .next t' ∧ AgreeForDecode s' t' := by
  rw [engineStep_decode hs] at hstep
  rw [engineStep_decode (h.status.trans hs)]
  by_cases hp : s.inPtr.toNat < s.inLen.toNat
  · rw [h.frame hbase hp]
    exact tokenStep_agrees h (hbase.trans s.inPtr_le_tokenStart) hc hstep
  · have hps : s.inLen.toNat < s.frame.p + 1 :=
      Nat.lt_succ_of_le ((Nat.le_of_not_lt hp).trans s.inPtr_le_tokenStart)
    have hpt : t.inLen.toNat < t.frame.p + 1 :=
      Nat.lt_succ_of_le ((h.inLen ▸ h.inPtr ▸ Nat.le_of_not_lt hp).trans t.inPtr_le_tokenStart)
    rw [tokenStep_missing hps] at hstep
    cases hstep
    exact ⟨_, tokenStep_missing hpt, h.raised _⟩

end

/-- While a DECODE is executing IN_PTR has not gone back before TOKEN_BASE. -/
theorem StateInv.tokenBase_le_inPtr {s : State} (h : StateInv s) (hs : s.status = .busy .decode) :
    tokenBase ≤ s.inPtr.toNat := by
  rcases h.cursor hs with h8 | ⟨h8, _⟩
  · exact h8.ge
  · exact h8.le

end Sys2Proof.Machine
end

section
/-! SUPPORT. The statement settled: what a decode step depends on. -/

namespace Sys2Proof.Machine

/-- Settles O47: of the invariant it needs that IN_PTR is at least TOKEN_BASE in the one state, and that SIZE is at most OUT_CAP in the other. -/
theorem decodeIgnoresHeaderAndUnwrittenOutput : Obligations.DecodeIgnoresHeaderAndUnwrittenOutput := by
  intro s t s' hinv hinvt hnext hnextt hs ht hcode hlen hsize hcount hptr hcmd hidx hin hout hstep
  have h : AgreeForDecode s t :=
    { status := ht.trans hs.symm, code := hcode, inLen := hlen, size := hsize, outCount := hcount, inPtr := hptr
      cmd := hcmd, bitIdx := hidx, input := hin, output := (output_eq_iff hcount).mpr hout }
  rw [step_engine hnext] at hstep
  rw [step_engine hnextt]
  obtain ⟨t', hstep', h'⟩ :=
    engineStep_decode_agrees h.turnTaken hs (hinv.tokenBase_le_inPtr hs) (hinvt.sizeCap ht) hstep
  exact ⟨t', hstep', h'.status, h'.code, h'.outCount, h'.inPtr, h'.cmd, h'.bitIdx, (output_eq_iff h'.outCount).mp h'.output⟩

end Sys2Proof.Machine
end

section
/-! SUPPORT. The statement settled: the step of a literal. -/

namespace Sys2Proof.Machine

/-- The frame is the token's offset and the governing byte, so the commit of its byte is the state the statement writes out (42_literal.md R115). -/
theorem execLit_completes {s : State} {d : Byte} (hp : s.tokenStart + 1 ≤ s.inLen.toNat)
    (hn : s.outCount.toNat < s.size.toNat) (hcap : s.size.toNat ≤ s.place.outCap) :
    execLit d s = .next { s with
      outMem := Memory.set s.outMem s.writeCursor d
      outCount := s.outCount + 1#32
      inPtr := BitVec.ofNat 32 (s.tokenStart + 1)
      cmd := s.groupByte, bitIdx := s.bitIdx + 1#3 } := by
  have hcount : BitVec.ofNat 32 (s.outCount.toNat + 1) = s.outCount + 1#32 := ofNat_toNat_add s.outCount 1
  rw [execLit, litBody_commits (fr := s.frame) d hp hn hcap, ← hcount]
  rfl

/-- In the middle of a group a flag of 0 selects a literal, the one byte at IN_PTR. -/
theorem step_literal {s : State} (hnext : s.engineNext = true) (hs : s.status = .busy .decode) (h0 : s.bitIdx ≠ 0#3)
    (hf : flagOf s.cmd s.bitIdx = false) (hp : s.inPtr.toNat < s.inLen.toNat) :
    step s = exec (.lit (s.inByte s.inPtr.toNat)) s.turnTaken := by
  have hsel : s.select = .token false := by rw [State.select_of_token h0, hf]
  exact step_of_decodes hnext hs (by rw [hsel]; rfl) (State.holdsAt_byte hp)
    (by rw [hsel, decodeStream_literal_cons])

/-- Settles O27: exec of LIT is `litBody` of the step's frame, and the decoder's selector is the flag of CMD at BIT_IDX. -/
theorem literalStep : Obligations.LiteralStep := fun s d =>
  ⟨litBody_truncated (fr := s.frame) d,
    fun hp hn => litBody_overflows (fr := s.frame) d hp (Nat.lt_succ_of_le hn), execLit_completes, step_literal⟩

end Sys2Proof.Machine
end

section
/-! SUPPORT. The state after a match that completes, and what a literal or match makes of the output (00_scope.md R13, 43_match.md R124). -/

namespace Sys2Proof.Machine

/-- The copy changes the output memory only, so the commit of a match is the state written out here (43_match.md R120). -/
theorem execBackref_completes {s : State} {position : BitVec 12} {rawLength : BitVec 4}
    (hp : s.tokenStart + 2 ≤ s.inLen.toNat) (hd : matchDistance position ≤ s.outCount.toNat)
    (hn : s.outCount.toNat + matchLength rawLength ≤ s.size.toNat) (hcap : s.size.toNat ≤ s.place.outCap) :
    ∃ u, copyBytes (matchLength rawLength) (s.matchSource position) s.writeCursor s = .ok u
      ∧ execBackref position rawLength s = .next { s with
        outMem := u.outMem
        outCount := BitVec.ofNat 32 (s.outCount.toNat + matchLength rawLength)
        inPtr := BitVec.ofNat 32 (s.tokenStart + 2)
        cmd := s.groupByte, bitIdx := s.bitIdx + 1#3 } := by
  obtain ⟨u, hu, hbody⟩ := matchBody_commits (fr := s.frame) hp hd hn hcap
  refine ⟨u, hu, ?_⟩
  rw [execBackref, hbody, copyBytes_frame hu]
  rfl

theorem litBody_output {fr : Frame} {d : Byte} {s t : State} (h : litBody fr d s = .next t) (hne : t.status ≠ .error) :
    t.output = s.output ++ [d] := by
  rcases litBody_next h with ⟨_, rfl⟩ | ⟨_, _, rfl⟩ | ⟨_, hn, _, rfl⟩
  · exact absurd rfl hne
  · exact absurd rfl hne
  · exact (output_emitted_commit (s := s.storeOut s.writeCursor d) hn _ _).trans (range_map_storeOut s s.writeCursor d)

/-- The room checked keeps OUT_COUNT from wrapping, so the new output is all that the copy has made. -/
theorem matchBody_output {fr : Frame} {position : BitVec 12} {rawLength : BitVec 4} {s t : State}
    (h : matchBody fr position rawLength s = .next t) (hne : t.status ≠ .error) :
    matchDistance position ≤ s.output.length
      ∧ appendCopy (matchLength rawLength) (matchDistance position) s.output = t.output := by
  rcases matchBody_next h with ⟨_, rfl⟩ | ⟨_, _, rfl⟩ | ⟨_, _, _, rfl⟩ | ⟨_, hd, hn, u, hu, rfl⟩
  · exact absurd rfl hne
  · exact absurd rfl hne
  · exact absurd rfl hne
  · have hframe := copyBytes_frame hu
    have hcount : u.outCount = s.outCount := by rw [hframe]
    have hroom : u.outCount.toNat + matchLength rawLength ≤ u.size.toNat := by rw [hframe]; exact hn
    rw [State.output_length, output_emitted_commit hroom, hcount]
    exact ⟨hd, (copyBytes_appendCopy (matchDistance_bounds position).1 hd hu).symm⟩

end Sys2Proof.Machine
end

section
/-! SUPPORT. The statements settled: the match. -/

namespace Sys2Proof.Machine

/-- Settles O29: `position < OUT_COUNT` is that the distance does not pass the bytes written, and the memory is the copy's. -/
theorem matchCopiesClosedForm : Obligations.MatchCopiesClosedForm := by
  intro s position rawLength hp hd hn hcap
  obtain ⟨u, hu, hexec⟩ := execBackref_completes hp hd hn hcap
  exact ⟨u.outMem, hexec, fun i hi => copyBytes_get (matchDistance_bounds position).1 hd hu hi,
    fun a ha => copyBytes_outside hu ha⟩

/-- Settles O30: by the kind of token. -/
theorem tokensExtendOutputByteByByte : Obligations.TokensExtendOutputByteByByte := by
  rintro s t i (⟨d, rfl⟩ | ⟨position, rawLength, rfl⟩) _ hexec hne
  · exact congrArg some (litBody_output hexec hne).symm
  · exact expandToken_backref.mpr (matchBody_output hexec hne)

/-- Settles O28: exec of MATCH is `matchBody` of the step's frame, and the ways that fails are its checks in their order. -/
theorem matchErrors : Obligations.MatchErrors := fun s position _ =>
  ⟨matchBody_truncated (fr := s.frame),
    fun hp hd => matchBody_reaches_before_start (fr := s.frame) (position := position) hp (Nat.lt_succ_of_le hd),
    matchBody_overflows (fr := s.frame)⟩

end Sys2Proof.Machine
end

section
/-! SUPPORT. The statements settled: the sentinel. -/

namespace Sys2Proof.Machine

/-- Of the two errors of a sentinel only the one raised where OUT_COUNT differs from SIZE has CODE 6 (44_sentinel.md R137). -/
theorem endBody_code_sizeMismatch {fr : Frame} {s t : State} (h : endBody fr s = .next t) (herr : t.status = .error)
    (hcode : t.code = ErrorKind.sizeMismatch.code) : s.outCount ≠ s.size := by
  rcases endBody_next h with ⟨_, rfl⟩ | ⟨_, hn, _⟩ | ⟨_, _, rfl⟩
  · exact absurd hcode (show ErrorKind.truncatedInput.code ≠ ErrorKind.sizeMismatch.code by decide)
  · exact hn
  · exact absurd herr (show Status.done ≠ Status.error by decide)

/-- Settles O32: SizeMismatch says that OUT_COUNT differs from SIZE, and the invariant that it is not above. -/
theorem sizeMismatchMeansTooFewBytes : Obligations.SizeMismatchMeansTooFewBytes := by
  intro s t position hinv hs hexec herr hcode
  have hle : s.outCount.toNat ≤ s.size.toNat := hinv.countSize hs
  have hne : s.outCount ≠ s.size := endBody_code_sizeMismatch (fr := s.frame) hexec herr hcode
  exact hle.lt_of_ne fun heq => hne (BitVec.eq_of_toNat_eq heq)

/-- Settles O31: exec of END is `endBody` of the step's frame whatever the position field, so its three ends are that body's. -/
theorem sentinelStep : Obligations.SentinelStep := fun s _ =>
  ⟨endBody_truncated (fr := s.frame), endBody_mismatch (fr := s.frame), endBody_finishes (fr := s.frame)⟩

end Sys2Proof.Machine
end

section
/-! SUPPORT. How a command's STATE and CODE change: an engine step that ends in ERROR is an error entry, and of the host's acts only a launch and the
reset input write them. -/

namespace Sys2Proof.Machine

/-- Of the ways a decode step ends only an error entry leaves ERROR: a sentinel leaves DONE, and an output-producing token keeps STATE. -/
theorem StepEnd.raised_of_error {fr : Frame} {s t : State} (hend : StepEnd fr s t) (hs : s.status ≠ .error)
    (ht : t.status = .error) : ∃ e, t = s.raised e := by
  cases hend with
  | raised e h => exact ⟨e, h⟩
  | literal d _ _ _ h =>
    rw [h] at ht
    exact absurd ht hs
  | sentinel _ _ h =>
    rw [h] at ht
    cases ht
  | copied position rawLength u _ _ _ hu h =>
    rw [h, copyBytes_frame hu] at ht
    exact absurd ht hs

/-- A step of an executing command that ends in ERROR is an error entry. -/
theorem engineStep_raised_of_error {s t : State} (hb : s.busy = true) (h : engineStep s = .next t)
    (ht : t.status = .error) : ∃ e, t = s.raised e := by
  rcases engineStep_next h with ⟨hidle, _⟩ | ⟨_, hraised | rfl⟩ | ⟨hs, hend⟩
  · simp [hb] at hidle
  · exact hraised
  · cases ht
  · exact hend.raised_of_error (by simp [hs]) ht

/-- An act of the host leaves STATE and CODE, but for the CTRL write that starts a command and the reset input. -/
theorem HostEnd.status_code {act : HostAct} {s t : State} (hend : HostEnd act s t) :
    (t.status = s.status ∧ t.code = s.code) ∨ act = .reset
    ∨ ∃ w, act = .regWrite 32 0x00#32 w ∧ (decodeCtrl w = .inspect ∨ decodeCtrl w = .decode) := by
  cases hend with
  | inspectStarted w hact hw => exact .inr (.inr ⟨w, hact, .inl hw⟩)
  | decodeStarted w hact hw => exact .inr (.inr ⟨w, hact, .inr hw⟩)
  | reset hact => exact .inr (.inl hact)
  | observed _ _ _ _ h => exact .inl (h ▸ ⟨rfl, rfl⟩)
  | inLenSet _ _ h => exact .inl (h ▸ ⟨rfl, rfl⟩)
  | sizeSet _ _ h => exact .inl (h ▸ ⟨rfl, rfl⟩)
  | inStored _ _ _ h => exact .inl (h ▸ ⟨rfl, rfl⟩)
  | outStored _ _ _ _ h => exact .inl (h ▸ ⟨rfl, rfl⟩)
  | outProvided _ _ _ _ h => exact .inl (h ▸ ⟨rfl, rfl⟩)

/-- OP = 00 and OP = 11 spell neither INSPECT nor DECODE (10_state.md R32). -/
theorem decodeCtrl_starts_nothing {w : Word} (hop : w.extractLsb' 0 2 = 0b00#2 ∨ w.extractLsb' 0 2 = 0b11#2) :
    ¬ (decodeCtrl w = .inspect ∨ decodeCtrl w = .decode) := by
  obtain ⟨hnop, _, _, hrsvd⟩ := decodeCtrl_of_op w
  rcases hop with h | h
  · simp [hnop h]
  · simp [hrsvd h]

end Sys2Proof.Machine
end

section
/-! SUPPORT. The statements settled: errors, and what keeps STATE and CODE. -/

namespace Sys2Proof.Machine

/-- Settles O39: every error of an executing command goes through the one error entry, `raised`, written out in the statement. -/
theorem errorsArePrecise : Obligations.ErrorsArePrecise := by
  intro s t hnext hb hstep ht
  rw [step_engine hnext] at hstep
  exact engineStep_raised_of_error (s := s.turnTaken) hb hstep ht

/-- Settles O48: the two acts that write STATE and CODE are the ones the statement leaves out, and with no command executing the engine's step
changes nothing. -/
theorem completionStatusIsSticky : Obligations.CompletionStatusIsSticky := by
  refine ⟨fun s t act rest hturns hreset hop hstep => ?_, fun s t hnext hb hstep => ?_⟩
  · rw [step_host hturns] at hstep
    rcases (hostAct_next hstep).status_code with hkeep | hact | ⟨w, hact, hw⟩
    · exact hkeep
    · exact absurd hact hreset
    · exact absurd hw (decodeCtrl_starts_nothing (hop w hact))
  · rw [step_engine hnext, engineStep_of_not_busy (s := s.turnTaken) hb] at hstep
    cases hstep
    exact ⟨rfl, rfl⟩

/-- Settles O50. -/
theorem errorCodesOfTheKinds : Obligations.ErrorCodesOfTheKinds := ⟨rfl, rfl, rfl, rfl, rfl, rfl⟩

end Sys2Proof.Machine
end

section
/-! SUPPORT. When a launch is refused (70_reset_and_hazards.md R175, R177): regions that share an address, and the refusals of INSPECT and DECODE. -/

namespace Sys2Proof.Machine

/-! ## Shared storage -/

/-- The ranges meet exactly where some address lies in both: the greater of the two bases is the first such address. -/
theorem Region.overlaps_iff (a b : Region) :
    Region.overlaps a b = true ↔ ∃ i j, i < a.len ∧ j < b.len ∧ a.base + i = b.base + j := by
  rw [Region.overlaps, decide_eq_true_iff]
  constructor
  · intro hmeet
    exact ⟨max a.base b.base - a.base, max a.base b.base - b.base, by omega, by omega, by omega⟩
  · rintro ⟨i, j, hi, hj, hsame⟩
    omega

/-- Storage of another engine meets one of the two memories exactly where one of its bytes is a byte of that memory. -/
theorem State.overlaps_other_iff (s : State) (r : Region) :
    (Region.overlaps s.inRegion r || Region.overlaps s.outRegion r) = true ↔
      ∃ k, k < r.len ∧
        ((∃ i, i < s.inLen.toNat ∧ s.place.inBase + i = r.base + k)
        ∨ ∃ j, j < s.place.outCap ∧ s.place.outBase + j = r.base + k) := by
  rw [Bool.or_eq_true, Region.overlaps_iff, Region.overlaps_iff]
  constructor
  · rintro (⟨i, k, hi, hk, hsame⟩ | ⟨j, k, hj, hk, hsame⟩)
    · exact ⟨k, hk, .inl ⟨i, hi, hsame⟩⟩
    · exact ⟨k, hk, .inr ⟨j, hj, hsame⟩⟩
  · rintro ⟨k, hk, ⟨i, hi, hsame⟩ | ⟨j, hj, hsame⟩⟩
    · exact .inl ⟨i, k, hi, hk, hsame⟩
    · exact .inr ⟨j, k, hj, hk, hsame⟩

theorem State.memoriesShare_iff (s : State) :
    s.memoriesShare = true ↔
      (∃ i j, i < s.inLen.toNat ∧ j < s.place.outCap ∧ s.place.inBase + i = s.place.outBase + j)
      ∨ ∃ r ∈ s.place.others, ∃ k, k < r.len ∧
          ((∃ i, i < s.inLen.toNat ∧ s.place.inBase + i = r.base + k)
          ∨ ∃ j, j < s.place.outCap ∧ s.place.outBase + j = r.base + k) := by
  rw [State.memoriesShare, Bool.or_eq_true, Region.overlaps_iff, List.any_eq_true]
  simp only [State.overlaps_other_iff]
  rfl

/-! ## The refusals of a launch -/

/-- Shared storage is the first check of either command. -/
theorem State.launchRefusal_eq_memoriesOverlap (s : State) (c : Command) :
    s.launchRefusal c = some .memoriesOverlap ↔ s.memoriesShare = true := by
  cases c with
  | inspect => simp [State.launchRefusal]
  | decode =>
    rw [State.launchRefusal]
    split
    next hs => simp [hs]
    next hs => split <;> simp [hs]

theorem State.launchRefusal_decode_outputTooSmall {s : State} (hs : s.memoriesShare = false)
    (hc : s.place.outCap < s.size.toNat) : s.launchRefusal .decode = some .outputTooSmall := by
  simp [State.launchRefusal, hs, hc]

/-- While not BUSY, INSPECT is refused for the reason its launch is. -/
theorem execInspect_eq_refused {s : State} (hb : s.busy = false) (r : Refusal) :
    execInspect s = .refused r ↔ s.launchRefusal .inspect = some r := by
  simp only [execInspect]
  split
  · exact absurd ‹_› (s.status_ne_busy hb _)
  · exact absurd ‹_› (s.status_ne_busy hb _)
  · cases s.launchRefusal .inspect <;> simp

/-- While not BUSY, DECODE is refused for the reason its launch is. -/
theorem execDecode_eq_refused {s : State} (hb : s.busy = false) (r : Refusal) :
    execDecode s = .refused r ↔ s.launchRefusal .decode = some r := by
  simp only [execDecode, hb, Bool.false_eq_true, if_false]
  cases s.launchRefusal .decode <;> simp

/-- While not BUSY, a DECODE depends on its launch check and on the state it starts. -/
theorem execDecode_congr {s t : State} (hs : s.busy = false) (ht : t.busy = false)
    (hlaunch : t.launchRefusal .decode = s.launchRefusal .decode) (hstart : t.decodeStarted = s.decodeStarted) :
    execDecode t = execDecode s := by
  simp only [execDecode, hs, ht, Bool.false_eq_true, if_false, hlaunch, hstart]

/-! ## The host's turns over reset and the output memory -/

theorem State.turnTaken_of_turns {s : State} {turn : Turn} {rest : List Turn} (h : s.turns = turn :: rest) :
    s.turnTaken = { s with turns := rest } := by
  rw [State.turnTaken, h, List.tail_cons]

/-- While not BUSY the host provides an output memory that nothing has written (70_reset_and_hazards.md R174 step 3). -/
theorem hostAct_provideOut {s : State} (hb : s.busy = false) (base cap : Nat) :
    hostAct (.provideOut base cap) s = .next { s with
      outMem := [], outGen := s.outGen + 1, place := { s.place with outBase := base, outCap := cap } } := by
  simp [hostAct, State.engineOwns, hb]

/-- An act of the host that starts no command leaves a state that is not BUSY so: it keeps STATE, or it is the reset input. -/
theorem hostAct_keeps_not_busy {act : HostAct} {s t : State} (hb : s.busy = false)
    (hop : ∀ w, act = .regWrite 32 0x00#32 w → w.extractLsb' 0 2 = 0b00#2 ∨ w.extractLsb' 0 2 = 0b11#2)
    (h : hostAct act s = .next t) : t.busy = false := by
  rcases (hostAct_next h).status_code with ⟨hstatus, _⟩ | rfl | ⟨w, hact, hw⟩
  · exact (congrArg Status.isBusy hstatus).trans hb
  · cases h
    rfl
  · exact absurd hw (decodeCtrl_starts_nothing (hop w hact))

end Sys2Proof.Machine
end

section
/-! SUPPORT. The statements settled: the reset input and the idle engine, who owns the memories, and the launches refused. -/

namespace Sys2Proof.Machine

/-- Settles O25: not BUSY, either command is refused for shared storage exactly when the memories share it, and that is an address of both. -/
theorem launchRefusedExactlyWhenStorageShared : Obligations.LaunchRefusedExactlyWhenStorageShared := by
  intro s hb
  have hinspect : exec .inspect s = .refused .memoriesOverlap ↔ s.memoriesShare = true :=
    (execInspect_eq_refused hb _).trans (s.launchRefusal_eq_memoriesOverlap .inspect)
  have hdecode : exec .decode s = .refused .memoriesOverlap ↔ s.memoriesShare = true :=
    (execDecode_eq_refused hb _).trans (s.launchRefusal_eq_memoriesOverlap .decode)
  exact ⟨hinspect.trans s.memoriesShare_iff, hdecode.trans hinspect.symm⟩

/-- Settles O2: `assertReset` behind the turn taken is the state the statement writes out. -/
theorem resetInputFromEveryState : Obligations.ResetInputFromEveryState := by
  intro s rest hturns
  rw [step_host hturns, State.turnTaken_of_turns hturns]
  rfl

/-- Settles O3: with no command executing the engine keeps its state, and of the host's turns only a launch makes it BUSY. -/
theorem engineTakesNoStepUntilCommanded : Obligations.EngineTakesNoStepUntilCommanded := by
  refine ⟨rfl, fun s hb hnext => ?_, fun s t act rest hb hturns hop hstep => ?_⟩
  · exact (step_engine hnext).trans (engineStep_of_not_busy (s := s.turnTaken) hb)
  · rw [step_host hturns] at hstep
    exact hostAct_keeps_not_busy (s := s.turnTaken) hb hop hstep

/-- Settles O13: ownership is BUSY, and it is the first check of each of the three acts. -/
theorem hostMemoryWritesRefusedWhileOwned : Obligations.HostMemoryWritesRefusedWhileOwned :=
  fun _ _ _ _ _ hb => ⟨if_pos hb, if_pos hb, if_pos hb⟩

/-- Settles O14: the memory provided lists no written byte, so a read of it gives its free value. -/
theorem hostProvidesOutputMemory : Obligations.HostProvidesOutputMemory :=
  fun _ base cap hb => ⟨_, hostAct_provideOut hb base cap, rfl, fun _ => rfl⟩

/-- Settles O24: the launch check reads IN_LEN, SIZE and the placement only, and the start sets every register that the statement varies. -/
theorem decodeForgetsEarlierCommands : Obligations.DecodeForgetsEarlierCommands :=
  fun _ _ _ _ _ _ _ hb hstatus => execDecode_congr hb hstatus rfl rfl

/-- Settles O26. -/
theorem undersizedOutputRefused : Obligations.UndersizedOutputRefused :=
  fun _ hb hs hc => (execDecode_eq_refused hb _).mpr (State.launchRefusal_decode_outputTooSmall hs hc)

end Sys2Proof.Machine
end
